-- ==== Sys2Proof/Word.lean ====
section
/-! DEFINITION. The widths of the machine: words, bytes, nybbles and register ids (00_scope.md R7, R9; 10_state.md R21, R24). -/

namespace Sys2Proof

/-- A word, an address and the program counter: 64 bits (R7; R21). -/
abbrev Word := BitVec 64

/-- The smallest addressable unit of memory (20_memory.md R50). -/
abbrev Byte := BitVec 8

/-- A 4-bit field of a byte (R9): icode, ifun, rA, rB. -/
abbrev Nybble := BitVec 4

/-- A register id, 0 to 15: every 4-bit value names a register (R24, R27). -/
abbrev RegId := BitVec 4

end Sys2Proof
end

