-- ==== Sys2Proof/Syntax.lean ====
section
/-! DEFINITION. The instructions, one constructor per row of opcode_table.json (30_encoding.md R78, R79, R81), and the names the
encoding tables use. -/

namespace Sys2Proof

/-- The four instruction formats (R70). -/
inductive Format
  | F1 | F2 | F9 | F10
  deriving DecidableEq, Repr

/-- The twelve instruction classes (R75). -/
inductive IClass
  | halt | nop | cmov | irmovq | rmmovq | mrmovq | op1 | jxx | call | ret | pushq | popq
  deriving DecidableEq, Repr

/-- The twelve classes, in the order of the source's listing (R75). -/
def IClass.all : List IClass :=
  [.halt, .nop, .cmov, .irmovq, .rmmovq, .mrmovq, .op1, .jxx, .call, .ret, .pushq, .popq]

/-- The seven defined conditions (41_condition_codes.md R133, R134). -/
inductive Cond
  | always | le | lt | eq | ne | ge | gt
  deriving DecidableEq, Repr

/-- The seven conditions, in the order of the source's listing (R133). -/
def Cond.all : List Cond := [.always, .le, .lt, .eq, .ne, .ge, .gt]

/-- The four ALU functions of OP1 (R76). -/
inductive AluFn
  | add | sub | and | xor
  deriving DecidableEq, Repr

/-- An instruction with every field of its encoding (R14, R70-R72, R84). `ifun` and the register nybbles marked unused by R73
are kept, so that encoding loses no bit; no meaning reads them (log 17). Reserved rows carry the bits the row leaves free. -/
inductive Instr
  /-- `00` (R180). -/
  | halt (ifun : Nybble)
  /-- `10` (R181). -/
  | nop (ifun : Nybble)
  /-- `20 rA:rB` (R191). -/
  | rrmovq (rA rB : RegId)
  /-- `21 rA:rB` (R192). -/
  | cmovle (rA rB : RegId)
  /-- `22 rA:rB` (R193). -/
  | cmovl (rA rB : RegId)
  /-- `23 rA:rB` (R194). -/
  | cmove (rA rB : RegId)
  /-- `24 rA:rB` (R195). -/
  | cmovne (rA rB : RegId)
  /-- `25 rA:rB` (R196). -/
  | cmovge (rA rB : RegId)
  /-- `26 rA:rB` (R197). -/
  | cmovg (rA rB : RegId)
  /-- `30 F:rB V[8]` (R200); rA is unused. -/
  | irmovq (ifun rA : Nybble) (rB : RegId) (valC : Word)
  /-- `40 rA:rB D[8]` (R201). -/
  | rmmovq (ifun : Nybble) (rA rB : RegId) (valC : Word)
  /-- `50 rA:rB D[8]` (R202). -/
  | mrmovq (ifun : Nybble) (rA rB : RegId) (valC : Word)
  /-- `60 rA:rB` (R160). -/
  | addq (rA rB : RegId)
  /-- `61 rA:rB` (R161). -/
  | subq (rA rB : RegId)
  /-- `62 rA:rB` (R162). -/
  | andq (rA rB : RegId)
  /-- `63 rA:rB` (R163). -/
  | xorq (rA rB : RegId)
  /-- `70 Dest[8]` (R221). -/
  | jmp (valC : Word)
  /-- `71 Dest[8]` (R222). -/
  | jle (valC : Word)
  /-- `72 Dest[8]` (R223). -/
  | jl (valC : Word)
  /-- `73 Dest[8]` (R224). -/
  | je (valC : Word)
  /-- `74 Dest[8]` (R225). -/
  | jne (valC : Word)
  /-- `75 Dest[8]` (R226). -/
  | jge (valC : Word)
  /-- `76 Dest[8]` (R227). -/
  | jg (valC : Word)
  /-- `80 Dest[8]` (R230). -/
  | call (ifun : Nybble) (valC : Word)
  /-- `90` (R231). -/
  | ret (ifun : Nybble)
  /-- `A0 rA:F` (R250); rB is unused. -/
  | pushq (ifun : Nybble) (rA : RegId) (rB : Nybble)
  /-- `B0 rA:F` (R251); rB is unused. -/
  | popq (ifun : Nybble) (rA : RegId) (rB : Nybble)
  /-- `27 rA:rB`: undefined selector 7 (R136). -/
  | cmovUndef7 (rA rB : RegId)
  /-- `28`-`2F rA:rB`: undefined selector 8 + low (R136). -/
  | cmovUndef8to15 (low : BitVec 3) (rA rB : RegId)
  /-- `77 Dest[8]`: undefined selector 7 (R136). -/
  | jxxUndef7 (valC : Word)
  /-- `78`-`7F Dest[8]`: undefined selector 8 + low (R136). -/
  | jxxUndef8to15 (low : BitVec 3) (valC : Word)
  /-- `64`-`67`, one byte: undefined function 4 + low (R81). -/
  | op1Undef4to7 (low : BitVec 2)
  /-- `68`-`6F`, one byte: undefined function 8 + low (R81). -/
  | op1Undef8to15 (low : BitVec 3)
  /-- `C0`-`FF`, one byte: icode 12 + low (R80). -/
  | unknownIcode (low : BitVec 2) (ifun : Nybble)
  deriving DecidableEq, Repr

end Sys2Proof
end

