-- ==== Sys2Proof/Config.lean ====
section
/-! DEFINITION. The parameters a model takes as arguments (00_scope.md R8). Their values at reset are in Machine/Defaults.lean. -/

namespace Sys2Proof

/-- `SP_OPERAND_MODE` (R8, decision D12): what pushq and popq of the stack pointer itself do (R250, R251). -/
inductive SpOperandMode
  | sequential
  | y86
  deriving DecidableEq, Repr

/-- The configuration of one machine (R8). `WORD_BYTES`, `NREGS`, `ADDR_BITS` are the types of Word.lean; `BYTE_ORDER`
is little-endian (20_memory.md R54: "The order is fixed"), in the byte functions of Decode.lean. Nothing in a run changes it. -/
structure Config where
  /-- `MEM_SIZE`: addresses 0 .. memSize - 1 exist (R50). OPEN in the spec. -/
  memSize : Nat
  /-- `ENTRY`: the pc at reset (R37). -/
  entry : Word
  /-- `SP_INDEX`: the register used as stack pointer (R25). -/
  spIndex : RegId
  /-- `ADD_DISPLACEMENT`: whether RMMOVQ and MRMOVQ add their 8-byte field (R205). -/
  addDisplacement : Bool
  /-- `SP_OPERAND_MODE` (R250, R251). -/
  spOperandMode : SpOperandMode
  /-- `STRICT_IFUN`: whether a non-zero ifun that no rule reads is BAD_INSTRUCTION (R81, R106). -/
  strictIfun : Bool
  /-- `ICODE_MAP`, "a configuration table" (92_eei_decisions.md D1): entry k is the class whose icode is k. The icodes 0xC to 0xF
  have no class under any map (30_encoding.md R80; DEDUCED, log 20). -/
  icodeMap : Vector IClass 12
  /-- `COND_MAP` (41_condition_codes.md R134, decision D2): entry k is the condition whose selector is k. The selectors 7 to 15 have
  no condition under any map (R133, R136; DEDUCED, log 20). -/
  condMap : Vector Cond 7
  deriving DecidableEq, Repr

/-- DEDUCED (log 20): which maps there are. The two maps give every class and every condition one number, and ALWAYS the number 0,
which alone the source gives (R75, R133). -/
abbrev Config.mapsWf (cfg : Config) : Prop :=
  cfg.icodeMap.toList.Perm IClass.all ∧ cfg.condMap.toList.Perm Cond.all ∧ cfg.condMap[0] = .always

/-- A configuration the spec allows: 1 ≤ MEM_SIZE ≤ 2^64 (R8, R50), and maps that are numberings. -/
abbrev Config.wf (cfg : Config) : Prop := 1 ≤ cfg.memSize ∧ cfg.memSize ≤ 2 ^ 64 ∧ cfg.mapsWf

end Sys2Proof
end

