-- ==== Sys2Proof/Machine/Defaults.lean ====
section
/-! DEFINITION. The values the model names for reset where the spec leaves them to the launch (10_state.md R37, decision D20), and the
parameter values reset takes (00_scope.md R8). Each is one definition, so that one line changes it. -/

namespace Sys2Proof.Machine

/-- DESIGN CHOICE (log 2), unsafe: `MEM_SIZE` is OPEN (R8, D5); reset takes the largest size the spec allows, so that no
address the spec can give a machine is left out. -/
def defaultMemSize : Nat := 2 ^ 64

/-- `ENTRY`, the spec's default 0 (R8, D20; log 3). -/
def defaultEntry : Word := 0

/-- `ICODE_MAP` at its default (30_encoding.md R75, decision D1; log 9). -/
def defaultIcodeMap : Vector IClass 12 :=
  #v[.halt, .nop, .cmov, .irmovq, .rmmovq, .mrmovq, .op1, .jxx, .call, .ret, .pushq, .popq]

/-- `COND_MAP` at its default (41_condition_codes.md R134, decision D2; log 9). -/
def defaultCondMap : Vector Cond 7 := #v[.always, .le, .lt, .eq, .ne, .ge, .gt]

/-- The parameters at reset: the spec's defaults (R8: D7, D11, D12, D13; logs 9, 11, 12, 13) and the two choices above. -/
def defaultConfig : Config where
  memSize := defaultMemSize
  entry := defaultEntry
  spIndex := 4
  addDisplacement := false
  spOperandMode := .sequential
  strictIfun := false
  icodeMap := defaultIcodeMap
  condMap := defaultCondMap

/-- DESIGN CHOICE (log 4), unsafe: the value each of the sixteen registers has at reset (R37: "unspecified: launch inputs"). -/
def resetRegister : Word := 0

/-- DESIGN CHOICE (log 5), unsafe: the value each flag has at reset (R37: "unspecified: a launch input"). -/
def resetFlag : Bool := false

/-- DESIGN CHOICE (log 6), unsafe at reset: what an address that the memory list does not name reads as (R37: "every other
byte unspecified"). Every memory content is some list, so a statement about every state does not rest on it. -/
def unlistedByte : Byte := 0

end Sys2Proof.Machine
end

