-- ==== Sys2Proof/WellFormed.lean ====
section
/-! DEFINITION. Which instructions a decoder may give (30_encoding.md R73, R81; 40_cycle.md R106). The widths of the fields leave one
check: the ifun of the nine classes that read none. -/

namespace Sys2Proof

/-- The ifun of an instruction of a class whose rule reads none (R73): halt, nop, irmovq, rmmovq, mrmovq, call, ret, pushq, popq. -/
def Instr.unreadIfun : Instr → Option Nybble
  | .halt f => some f
  | .nop f => some f
  | .irmovq f _ _ _ => some f
  | .rmmovq f _ _ _ => some f
  | .mrmovq f _ _ _ => some f
  | .call f _ => some f
  | .ret f => some f
  | .pushq f _ _ => some f
  | .popq f _ _ => some f
  | .rrmovq _ _ | .cmovle _ _ | .cmovl _ _ | .cmove _ _ | .cmovne _ _ | .cmovge _ _ | .cmovg _ _ => none
  | .addq _ _ | .subq _ _ | .andq _ _ | .xorq _ _ => none
  | .jmp _ | .jle _ | .jl _ | .je _ | .jne _ | .jge _ | .jg _ => none
  | .cmovUndef7 _ _ | .cmovUndef8to15 _ _ _ | .jxxUndef7 _ | .jxxUndef8to15 _ _ => none
  | .op1Undef4to7 _ | .op1Undef8to15 _ | .unknownIcode _ _ => none

/-- With `STRICT_IFUN` an unread ifun must be 0; without it every value is legal and ignored (R81, decision D13). -/
def Instr.wf (strict : Bool) (i : Instr) : Bool :=
  match i.unreadIfun with
  | some f => !strict || f == 0
  | none => true

end Sys2Proof
end

