-- ==== Sys2Proof/Decode.lean ====
section
/-! DEFINITION. The decoder, total on any bytes (30_encoding.md; 40_cycle.md R104-R106), and after it the encoder, both from the
one set of tables: `ICODE_MAP` and `COND_MAP` of the configuration (R75, R134) and the OP1 functions (R76). The byte order of
words (20_memory.md R54, R56) is fixed here. -/

namespace Sys2Proof

/-! ### Bit fields and byte order -/

/-- The nybble accessor (R104): position 0 is b[3:0], position 1 is b[7:4]. -/
def nybble (b : Byte) (position : Fin 2) : Nybble := b.extractLsb' (4 * position.val) 4

/-- Two nybbles as a byte, the more significant first: the opcode byte icode:ifun (R71) and the register byte rA:rB (R72). -/
def byteOfNybbles (hi lo : Nybble) : Byte := hi ++ lo

/-- Byte k of a word, w[8k+7:8k] (R54). -/
def byteOf (w : Word) (k : Nat) : Byte := w.extractLsb' (8 * k) 8

/-- The eight bytes of a word in memory order, least significant first (R54, decision D4). -/
def wordBytes (w : Word) : List Byte :=
  [byteOf w 0, byteOf w 1, byteOf w 2, byteOf w 3, byteOf w 4, byteOf w 5, byteOf w 6, byteOf w 7]

/-- The word whose bytes, least significant first, are b0 to b7 (R54, R74). -/
def wordOfBytes (b0 b1 b2 b3 b4 b5 b6 b7 : Byte) : Word :=
  b7 ++ b6 ++ b5 ++ b4 ++ b3 ++ b2 ++ b1 ++ b0

/-! ### The tables -/

/-- The length of a format in bytes (R70). -/
def Format.length : Format → Nat
  | .F1 => 1
  | .F2 => 2
  | .F9 => 9
  | .F10 => 10

/-- The format of a class (R70, R75). -/
def IClass.format : IClass → Format
  | .halt | .nop | .ret => .F1
  | .cmov | .op1 | .pushq | .popq => .F2
  | .jxx | .call => .F9
  | .irmovq | .rmmovq | .mrmovq => .F10

/-- The OP1 function codes (R76). -/
def aluTable : List (Nybble × AluFn) := [(0, .add), (1, .sub), (2, .and), (3, .xor)]

/-- The class an icode names under `ICODE_MAP`; none for 0xC to 0xF (R75). -/
def classOf (cfg : Config) (icode : Nybble) : Option IClass := cfg.icodeMap[icode.toNat]?

/-- The icode of a class under `ICODE_MAP` (R75). -/
def icodeOf (cfg : Config) (c : IClass) : Nybble := BitVec.ofNat 4 (cfg.icodeMap.toList.idxOf c)

/-- The condition a selector names under `COND_MAP`; none for 7 to 15 (R134). -/
def condOf (cfg : Config) (sel : Nybble) : Option Cond := cfg.condMap[sel.toNat]?

/-- The selector of a condition under `COND_MAP` (R134). -/
def selOf (cfg : Config) (c : Cond) : Nybble := BitVec.ofNat 4 (cfg.condMap.toList.idxOf c)

/-- The ALU function of an OP1 ifun; none for 4 to 15 (R76). -/
def aluFnOf (ifun : Nybble) : Option AluFn := (aluTable.find? (fun r => r.1 == ifun)).map Prod.snd

/-- The OP1 ifun of an ALU function (R76). -/
def ifunOf (f : AluFn) : Nybble := ((aluTable.find? (fun r => r.2 == f)).map Prod.fst).getD 0xF

/-- Which classes have a rule that reads ifun (R73, R84). -/
def IClass.readsIfun : IClass → Bool
  | .cmov | .op1 | .jxx => true
  | .halt | .nop | .irmovq | .rmmovq | .mrmovq | .call | .ret | .pushq | .popq => false

/-- The selector 8 + low, or the ifun 8 + low. -/
def eightPlus (low : BitVec 3) : Nybble := 1#1 ++ low

/-- The ifun 4 + low. -/
def fourPlus (low : BitVec 2) : Nybble := 1#2 ++ low

/-- The icode 12 + low. -/
def twelvePlus (low : BitVec 2) : Nybble := 3#2 ++ low

/-! ### Decoding -/

/-- Why a byte sequence is not an instruction. -/
inductive Reject
  /-- There are fewer bytes than the instruction's length (R83). -/
  | truncated
  /-- `STRICT_IFUN`: a non-zero ifun in a class that reads none (R106 check 3). -/
  | nonzeroIfun (icode ifun : Nybble)
  deriving DecidableEq, Repr

/-- What the opcode byte alone decides, before any operand byte is read (R106). -/
inductive OpcodeVerdict
  /-- The instruction ends with its opcode byte: an unrecognised icode or an undefined OP1 function (R80, R81). -/
  | whole (i : Instr)
  /-- Refused by the strict ifun check. -/
  | rejected (r : Reject)
  /-- A class of `ICODE_MAP`: the operand bytes of its format follow. -/
  | operands (cls : IClass) (ifun : Nybble)
  deriving DecidableEq, Repr

/-- OP1 with ifun 4 to 15 (R81): the reserved row it belongs to. -/
def undefinedOp1 (ifun : Nybble) : Instr :=
  if ifun < 8 then .op1Undef4to7 (ifun.extractLsb' 0 2) else .op1Undef8to15 (ifun.extractLsb' 0 3)

/-- The class checks of R106 in their order: icode, OP1 function, strict ifun. -/
def decodeOpcode (cfg : Config) (b0 : Byte) : OpcodeVerdict :=
  let icode := nybble b0 1
  let ifun := nybble b0 0
  match classOf cfg icode with
  | none => .whole (.unknownIcode (icode.extractLsb' 0 2) ifun)
  | some cls =>
    if cls = .op1 ∧ 3 < ifun then .whole (undefinedOp1 ifun)
    else if cfg.strictIfun ∧ cls.readsIfun = false ∧ ifun ≠ 0 then .rejected (.nonzeroIfun icode ifun)
    else .operands cls ifun

/-- The CMOVxx instruction of a selector (R78, R79). -/
def cmovInstr (cfg : Config) (sel : Nybble) (rA rB : RegId) : Instr :=
  match condOf cfg sel with
  | some .always => .rrmovq rA rB
  | some .le => .cmovle rA rB
  | some .lt => .cmovl rA rB
  | some .eq => .cmove rA rB
  | some .ne => .cmovne rA rB
  | some .ge => .cmovge rA rB
  | some .gt => .cmovg rA rB
  | none => if sel < 8 then .cmovUndef7 rA rB else .cmovUndef8to15 (sel.extractLsb' 0 3) rA rB

/-- The Jxx instruction of a selector (R78, R79). -/
def jxxInstr (cfg : Config) (sel : Nybble) (dest : Word) : Instr :=
  match condOf cfg sel with
  | some .always => .jmp dest
  | some .le => .jle dest
  | some .lt => .jl dest
  | some .eq => .je dest
  | some .ne => .jne dest
  | some .ge => .jge dest
  | some .gt => .jg dest
  | none => if sel < 8 then .jxxUndef7 dest else .jxxUndef8to15 (sel.extractLsb' 0 3) dest

/-- The OP1 instruction of a function code (R76, R78). -/
def op1Instr (ifun : Nybble) (rA rB : RegId) : Instr :=
  match aluFnOf ifun with
  | some .add => .addq rA rB
  | some .sub => .subq rA rB
  | some .and => .andq rA rB
  | some .xor => .xorq rA rB
  | none => undefinedOp1 ifun

/-- The instruction of a class, its ifun, its register byte and its valC (R84). A format that lacks a field ignores it. -/
def assemble (cfg : Config) (cls : IClass) (ifun : Nybble) (regByte : Byte) (valC : Word) : Instr :=
  let rA := nybble regByte 1
  let rB := nybble regByte 0
  match cls with
  | .halt => .halt ifun
  | .nop => .nop ifun
  | .cmov => cmovInstr cfg ifun rA rB
  | .irmovq => .irmovq ifun rA rB valC
  | .rmmovq => .rmmovq ifun rA rB valC
  | .mrmovq => .mrmovq ifun rA rB valC
  | .op1 => op1Instr ifun rA rB
  | .jxx => jxxInstr cfg ifun valC
  | .call => .call ifun valC
  | .ret => .ret ifun
  | .pushq => .pushq ifun rA rB
  | .popq => .popq ifun rA rB

/-- Reads a register byte off a byte list. -/
def takeByte : List Byte → Option (Byte × List Byte)
  | b :: rest => some (b, rest)
  | [] => none

/-- Reads a valC off a byte list, little-endian (R74). -/
def takeWord : List Byte → Option (Word × List Byte)
  | b0 :: b1 :: b2 :: b3 :: b4 :: b5 :: b6 :: b7 :: rest => some (wordOfBytes b0 b1 b2 b3 b4 b5 b6 b7, rest)
  | _ => none

/-- Reads the operand bytes of a format (R70, R74): the register byte, then valC; a field the format lacks is given as 0. -/
def takeOperands (f : Format) (bytes : List Byte) : Option (Byte × Word × List Byte) :=
  match f with
  | .F1 => some (0, 0, bytes)
  | .F2 => (takeByte bytes).map (fun p => (p.1, 0, p.2))
  | .F9 => (takeWord bytes).map (fun p => (0, p.1, p.2))
  | .F10 => (takeByte bytes).bind (fun p => (takeWord p.2).map (fun q => (p.1, q.1, q.2)))

/-- The decoder: the first instruction of a byte list and the bytes after it (R79: total). -/
def decode (cfg : Config) : List Byte → Except Reject (Instr × List Byte)
  | [] => .error .truncated
  | b0 :: bytes =>
    match decodeOpcode cfg b0 with
    | .whole i => .ok (i, bytes)
    | .rejected r => .error r
    | .operands cls ifun =>
      match takeOperands cls.format bytes with
      | some (regByte, valC, rest) => .ok (assemble cfg cls ifun regByte valC, rest)
      | none => .error .truncated

/-! ### Encoding -/

/-- The bytes of format F1 (R74). -/
def encodeF1 (cfg : Config) (c : IClass) (ifun : Nybble) : List Byte := [byteOfNybbles (icodeOf cfg c) ifun]

/-- The bytes of format F2 (R74). -/
def encodeF2 (cfg : Config) (c : IClass) (ifun rA rB : Nybble) : List Byte := [byteOfNybbles (icodeOf cfg c) ifun, byteOfNybbles rA rB]

/-- The bytes of format F9 (R74). -/
def encodeF9 (cfg : Config) (c : IClass) (ifun : Nybble) (valC : Word) : List Byte := byteOfNybbles (icodeOf cfg c) ifun :: wordBytes valC

/-- The bytes of format F10 (R74). -/
def encodeF10 (cfg : Config) (c : IClass) (ifun rA rB : Nybble) (valC : Word) : List Byte :=
  byteOfNybbles (icodeOf cfg c) ifun :: byteOfNybbles rA rB :: wordBytes valC

/-- The bytes of an instruction (R78). -/
def encode (cfg : Config) : Instr → List Byte
  | .halt f => encodeF1 cfg .halt f
  | .nop f => encodeF1 cfg .nop f
  | .rrmovq rA rB => encodeF2 cfg .cmov (selOf cfg .always) rA rB
  | .cmovle rA rB => encodeF2 cfg .cmov (selOf cfg .le) rA rB
  | .cmovl rA rB => encodeF2 cfg .cmov (selOf cfg .lt) rA rB
  | .cmove rA rB => encodeF2 cfg .cmov (selOf cfg .eq) rA rB
  | .cmovne rA rB => encodeF2 cfg .cmov (selOf cfg .ne) rA rB
  | .cmovge rA rB => encodeF2 cfg .cmov (selOf cfg .ge) rA rB
  | .cmovg rA rB => encodeF2 cfg .cmov (selOf cfg .gt) rA rB
  | .irmovq f rA rB v => encodeF10 cfg .irmovq f rA rB v
  | .rmmovq f rA rB v => encodeF10 cfg .rmmovq f rA rB v
  | .mrmovq f rA rB v => encodeF10 cfg .mrmovq f rA rB v
  | .addq rA rB => encodeF2 cfg .op1 (ifunOf .add) rA rB
  | .subq rA rB => encodeF2 cfg .op1 (ifunOf .sub) rA rB
  | .andq rA rB => encodeF2 cfg .op1 (ifunOf .and) rA rB
  | .xorq rA rB => encodeF2 cfg .op1 (ifunOf .xor) rA rB
  | .jmp v => encodeF9 cfg .jxx (selOf cfg .always) v
  | .jle v => encodeF9 cfg .jxx (selOf cfg .le) v
  | .jl v => encodeF9 cfg .jxx (selOf cfg .lt) v
  | .je v => encodeF9 cfg .jxx (selOf cfg .eq) v
  | .jne v => encodeF9 cfg .jxx (selOf cfg .ne) v
  | .jge v => encodeF9 cfg .jxx (selOf cfg .ge) v
  | .jg v => encodeF9 cfg .jxx (selOf cfg .gt) v
  | .call f v => encodeF9 cfg .call f v
  | .ret f => encodeF1 cfg .ret f
  | .pushq f rA rB => encodeF2 cfg .pushq f rA rB
  | .popq f rA rB => encodeF2 cfg .popq f rA rB
  | .cmovUndef7 rA rB => encodeF2 cfg .cmov 7 rA rB
  | .cmovUndef8to15 low rA rB => encodeF2 cfg .cmov (eightPlus low) rA rB
  | .jxxUndef7 v => encodeF9 cfg .jxx 7 v
  | .jxxUndef8to15 low v => encodeF9 cfg .jxx (eightPlus low) v
  | .op1Undef4to7 low => encodeF1 cfg .op1 (fourPlus low)
  | .op1Undef8to15 low => encodeF1 cfg .op1 (eightPlus low)
  | .unknownIcode low f => [byteOfNybbles (twelvePlus low) f]

/-- The length of an instruction in bytes (R70; one byte for the encodings R83 gives no length). -/
def Instr.length : Instr → Nat
  | .halt _ | .nop _ | .ret _ => Format.F1.length
  | .rrmovq _ _ | .cmovle _ _ | .cmovl _ _ | .cmove _ _ | .cmovne _ _ | .cmovge _ _ | .cmovg _ _ => Format.F2.length
  | .addq _ _ | .subq _ _ | .andq _ _ | .xorq _ _ | .pushq _ _ _ | .popq _ _ _ => Format.F2.length
  | .jmp _ | .jle _ | .jl _ | .je _ | .jne _ | .jge _ | .jg _ | .call _ _ => Format.F9.length
  | .irmovq _ _ _ _ | .rmmovq _ _ _ _ | .mrmovq _ _ _ _ => Format.F10.length
  | .cmovUndef7 _ _ | .cmovUndef8to15 _ _ _ => Format.F2.length
  | .jxxUndef7 _ | .jxxUndef8to15 _ _ => Format.F9.length
  | .op1Undef4to7 _ | .op1Undef8to15 _ | .unknownIcode _ _ => 1

/-! ### The opcode table's rows -/

/-- A row of opcode_table.json: it matches a byte b when b &&& mask = pattern. -/
structure OpcodeRow where
  mnemonic : String
  pattern : Byte
  mask : Byte
  deriving DecidableEq, Repr

/-- Rows 1 to 11 of opcode_table.json. -/
def opcodeRowsMoves : List OpcodeRow :=
  [⟨"halt", 0x00, 0xF0⟩, ⟨"nop", 0x10, 0xF0⟩, ⟨"rrmovq", 0x20, 0xFF⟩, ⟨"cmovle", 0x21, 0xFF⟩, ⟨"cmovl", 0x22, 0xFF⟩,
   ⟨"cmove", 0x23, 0xFF⟩, ⟨"cmovne", 0x24, 0xFF⟩, ⟨"cmovge", 0x25, 0xFF⟩, ⟨"cmovg", 0x26, 0xFF⟩, ⟨"irmovq", 0x30, 0xF0⟩,
   ⟨"rmmovq", 0x40, 0xF0⟩]

/-- Rows 12 to 23. -/
def opcodeRowsAlu : List OpcodeRow :=
  [⟨"mrmovq", 0x50, 0xF0⟩, ⟨"addq", 0x60, 0xFF⟩, ⟨"subq", 0x61, 0xFF⟩, ⟨"andq", 0x62, 0xFF⟩, ⟨"xorq", 0x63, 0xFF⟩,
   ⟨"jmp", 0x70, 0xFF⟩, ⟨"jle", 0x71, 0xFF⟩, ⟨"jl", 0x72, 0xFF⟩, ⟨"je", 0x73, 0xFF⟩, ⟨"jne", 0x74, 0xFF⟩,
   ⟨"jge", 0x75, 0xFF⟩, ⟨"jg", 0x76, 0xFF⟩]

/-- Rows 24 to 34. -/
def opcodeRowsRest : List OpcodeRow :=
  [⟨"call", 0x80, 0xF0⟩, ⟨"ret", 0x90, 0xF0⟩, ⟨"pushq", 0xA0, 0xF0⟩, ⟨"popq", 0xB0, 0xF0⟩,
   ⟨"cmov__undefined_selector_7", 0x27, 0xFF⟩, ⟨"cmov__undefined_selector_8-15", 0x28, 0xF8⟩,
   ⟨"jxx__undefined_selector_7", 0x77, 0xFF⟩, ⟨"jxx__undefined_selector_8-15", 0x78, 0xF8⟩,
   ⟨"op1__undefined_function_4-7", 0x64, 0xFC⟩, ⟨"op1__undefined_function_8-15", 0x68, 0xF8⟩,
   ⟨"unknown_icode_0xC-0xF", 0xC0, 0xC0⟩]

/-- The whole of opcode_table.json, as data of its own: the decoder above does not use it, so that the two can be compared. -/
def opcodeRows : List OpcodeRow := opcodeRowsMoves ++ opcodeRowsAlu ++ opcodeRowsRest

/-- The row's mnemonic in opcode_table.json. -/
def Instr.mnemonic : Instr → String
  | .halt _ => "halt"
  | .nop _ => "nop"
  | .rrmovq _ _ => "rrmovq"
  | .cmovle _ _ => "cmovle"
  | .cmovl _ _ => "cmovl"
  | .cmove _ _ => "cmove"
  | .cmovne _ _ => "cmovne"
  | .cmovge _ _ => "cmovge"
  | .cmovg _ _ => "cmovg"
  | .irmovq _ _ _ _ => "irmovq"
  | .rmmovq _ _ _ _ => "rmmovq"
  | .mrmovq _ _ _ _ => "mrmovq"
  | .addq _ _ => "addq"
  | .subq _ _ => "subq"
  | .andq _ _ => "andq"
  | .xorq _ _ => "xorq"
  | .jmp _ => "jmp"
  | .jle _ => "jle"
  | .jl _ => "jl"
  | .je _ => "je"
  | .jne _ => "jne"
  | .jge _ => "jge"
  | .jg _ => "jg"
  | .call _ _ => "call"
  | .ret _ => "ret"
  | .pushq _ _ _ => "pushq"
  | .popq _ _ _ => "popq"
  | .cmovUndef7 _ _ => "cmov__undefined_selector_7"
  | .cmovUndef8to15 _ _ _ => "cmov__undefined_selector_8-15"
  | .jxxUndef7 _ => "jxx__undefined_selector_7"
  | .jxxUndef8to15 _ _ => "jxx__undefined_selector_8-15"
  | .op1Undef4to7 _ => "op1__undefined_function_4-7"
  | .op1Undef8to15 _ => "op1__undefined_function_8-15"
  | .unknownIcode _ _ => "unknown_icode_0xC-0xF"

/-! ### Words of the opcode table -/

/-- The bytes of an instruction given as one number, bit 0 the least significant bit of its first byte: the low nbits bits of
w, laid out first byte first, zeros above them up to the longest instruction (10 bytes). -/
def tableBytes (nbits w : Nat) : List Byte :=
  (List.range 10).map (fun k => BitVec.ofNat 8 ((w % 2 ^ nbits) >>> (8 * k)))

/-- The instruction the decoder reads from such a word, with the parameters reset takes. -/
def decodeTableWord (nbits w : Nat) : Option Instr :=
  match decode Machine.defaultConfig (tableBytes nbits w) with
  | .ok (i, _) => some i
  | .error _ => none

end Sys2Proof
end

