-- ==== Sys2Proof/Machine/State.lean ====
section
/-! DEFINITION. The machine's state (10_state.md R20), the two ways a step can stop, and the state after reset (R37, R290). -/

namespace Sys2Proof.Machine

/-- The status register's four values (R28). -/
inductive Status
  | ok
  | halted
  | badAddress
  | badInstruction
  deriving DecidableEq, Repr

/-- The condition-code register: Zero, Sign, Overflow (R30). -/
structure Flags where
  z : Bool
  s : Bool
  o : Bool
  deriving DecidableEq, Repr

/-- Memory contents: the bytes that differ from `unlistedByte`, by rising address (`Memory.wf` in Ops.lean). -/
abbrev Memory := List Host.Cell

/-- The machine (R20), and the parameters it is built with (R8; `cfg` is the model's own field, log 1). -/
structure State where
  cfg : Config
  /-- The address of the next instruction's first byte (R21). -/
  pc : Word
  /-- R28. -/
  status : Status
  /-- R30. -/
  cc : Flags
  /-- x[0] to x[15] (R24). -/
  regs : Vector Word 16
  /-- R50. -/
  mem : Memory
  deriving DecidableEq, Repr

/-- What stops the machine with no next state. -/
inductive Fault
  /-- The fatal abort (41_condition_codes.md R136, 60_exceptions.md R265): CMOVxx or Jxx with selector 7 to 15, raised by the
  meanings of the four undefined-selector rows; it carries the instruction's address and the selector. Safe: the spec gives
  the abort and no next state (log 15). -/
  | fatalAbort (pc : Word) (selector : Nybble)
  deriving DecidableEq, Repr

/-- What the model gives no meaning. -/
inductive Refusal
  /-- An arm of exec without a meaning; none is left. Safe. -/
  | notModelled (mnemonic : String)
  /-- A host write of a status number other than 1 to 4 (R28, decision D19): raised by `writeStatus` of HostPort.lean, never
  by a step. Safe: the spec says the model refuses it (log 16). -/
  | badStatusNumber (n : Nat)
  deriving DecidableEq, Repr

/-- The machine at its creation by the host (R37, R290): pc is `ENTRY` and status is OK; the flags, the registers and the
memory are launch inputs. -/
def State.launch (cfg : Config) (cc : Flags) (regs : Vector Word 16) (mem : Memory) : State where
  cfg := cfg
  pc := cfg.entry
  status := .ok
  cc := cc
  regs := regs
  mem := mem

/-- The state after reset (R37) at the launch inputs Defaults.lean names: logs 2 to 6. -/
def State.reset : State :=
  State.launch defaultConfig ⟨resetFlag, resetFlag, resetFlag⟩ (Vector.replicate 16 resetRegister) []

end Sys2Proof.Machine
end

