-- ==== Sys2Proof/Machine/Ops.lean ====
section
/-! DEFINITION. The named operations over registers, memory, pc and status (00_scope.md R11-R13), and the events a step can end in
(60_exceptions.md R262-R265). There is no return from an event (R268). -/

namespace Sys2Proof.Machine

/-! ### Registers (10_state.md R24, R27) -/

/-- `x[i]`. -/
def State.readReg (s : State) (i : RegId) : Word := s.regs[i.toNat]'i.isLt

/-- `x[i] <- v`. -/
def State.writeReg (s : State) (i : RegId) (v : Word) : State := { s with regs := s.regs.set i.toNat v i.isLt }

/-- `SP`, that is `x[SP_INDEX]` (R25). -/
def State.sp (s : State) : Word := s.readReg s.cfg.spIndex

/-- `SP <- v`. -/
def State.writeSp (s : State) (v : Word) : State := s.writeReg s.cfg.spIndex v

/-! ### pc and status -/

/-- `pc <- target` (R13). -/
def State.setPc (s : State) (target : Word) : State := { s with pc := target }

/-- pc past an instruction of n bytes, modulo 2^64 (R21, R23). -/
def State.advance (s : State) (n : Nat) : State := s.setPc (s.pc + BitVec.ofNat 64 n)

/-- `status <- S` (R13). -/
def State.setStatus (s : State) (st : Status) : State := { s with status := st }

/-! ### Memory contents -/

/-- The canonical form: addresses strictly rising, no entry equal to what an unlisted address reads as. -/
abbrev Memory.wf (m : Memory) : Prop :=
  m.Pairwise (fun c d => c.1 < d.1) ∧ ∀ c ∈ m, c.2 ≠ unlistedByte

/-- The byte at an address. -/
def Memory.read : Memory → Nat → Byte
  | [], _ => unlistedByte
  | c :: m, a => if c.1 = a then c.2 else Memory.read m a

/-- Lists a byte at its place. -/
def Memory.list : Memory → Nat → Byte → Memory
  | [], a, b => [(a, b)]
  | c :: m, a, b => if a < c.1 then (a, b) :: c :: m else if a = c.1 then (a, b) :: m else c :: Memory.list m a b

/-- Writes a byte; writing what an unlisted address reads as removes the entry. -/
def Memory.write (m : Memory) (a : Nat) (b : Byte) : Memory :=
  if b = unlistedByte then m.filter (fun c => c.1 ≠ a) else Memory.list m a b

/-- Writes bytes at rising addresses. -/
def Memory.writeBytes : Memory → Nat → List Byte → Memory
  | m, _, [] => m
  | m, a, b :: bs => Memory.writeBytes (m.write a b) (a + 1) bs

/-- The n bytes from an address on. -/
def Memory.readBytes (m : Memory) (a : Nat) : Nat → List Byte
  | 0 => []
  | n + 1 => m.read a :: Memory.readBytes m (a + 1) n

/-- The word at an address, little-endian (20_memory.md R54). -/
def Memory.readWord (m : Memory) (a : Nat) : Word :=
  wordOfBytes (m.read a) (m.read (a + 1)) (m.read (a + 2)) (m.read (a + 3)) (m.read (a + 4)) (m.read (a + 5)) (m.read (a + 6))
    (m.read (a + 7))

/-! ### The four memory primitives (20_memory.md R51). Addresses are unbounded integers, so that no access wraps (R53). -/

/-- A byte access is in range (R52). -/
abbrev State.byteInRange (s : State) (a : Nat) : Prop := a < s.cfg.memSize

/-- A word access is in range: all eight bytes are (R53). -/
abbrev State.wordInRange (s : State) (a : Nat) : Prop := a + 8 ≤ s.cfg.memSize

/-- `readByte`: none when out of range. -/
def State.readByte (s : State) (a : Nat) : Option Byte := if s.byteInRange a then some (s.mem.read a) else none

/-- `readWord`: none when out of range. -/
def State.readWord (s : State) (a : Nat) : Option Word := if s.wordInRange a then some (s.mem.readWord a) else none

/-- `writeByte`: none when out of range. No instruction uses it (10_state.md R34). -/
def State.writeByte (s : State) (a : Nat) (b : Byte) : Option State :=
  if s.byteInRange a then some { s with mem := s.mem.write a b } else none

/-- `writeWord`: none when out of range, and then no byte is written (R53). -/
def State.writeWord (s : State) (a : Nat) (w : Word) : Option State :=
  if s.wordInRange a then some { s with mem := s.mem.writeBytes a (wordBytes w) } else none

/-- The loader's write of an image (R60): each byte that is in range. -/
def State.loadBytes : State → Nat → List Byte → State
  | s, _, [] => s
  | s, a, b :: bs => State.loadBytes ((s.writeByte a b).getD s) (a + 1) bs

/-! ### Events (60_exceptions.md). An event saves nothing and transfers control nowhere (R267). -/

/-- `raise BadAddress(addr)` (R262): the status; PC and everything else as before (decision D15, log 14). The failing address
is stored in no state. -/
def raiseBadAddress (_addr : Nat) (s : State) : State := s.setStatus .badAddress

/-- `raise BadInstruction()` (R263): the status, and pc + 1. -/
def raiseBadInstruction (s : State) : State := (s.setStatus .badInstruction).advance 1

/-- `raise Fatal(pc, sel)` (R265): no next state. -/
def raiseFatal (pc : Word) (sel : Nybble) : Host.Outcome State Fault Refusal := .fault (.fatalAbort pc sel)

/-- The outcome of an execute phase whose one data access may have failed at an address: the completed state, or BAD_ADDRESS
raised in the state before it (R109). -/
def orBadAddress (s : State) (r : Except Nat State) : Host.Outcome State Fault Refusal :=
  match r with
  | .ok t => .next t
  | .error addr => .next (raiseBadAddress addr s)

/-- The end of a step (40_cycle.md R108): a step that set no terminal status sets OK. -/
def endOfStep (s : State) : State :=
  match s.status with
  | .ok => s.setStatus .ok
  | .halted => s
  | .badAddress => s
  | .badInstruction => s

/-! ### The stack (46_stack.md R255): one push and one pop for PUSHQ, POPQ, CALL and RET -/

/-- The address a push writes: SP - 8, modulo 2^64. -/
def State.pushAddress (s : State) : Word := s.sp - 8

/-- Pushes a word: writes it at SP - 8, then SP becomes that address; the failing address if the write is out of range. -/
def State.push (s : State) (v : Word) : Except Nat State :=
  match s.writeWord s.pushAddress.toNat v with
  | some t => .ok (t.writeSp s.pushAddress)
  | none => .error s.pushAddress.toNat

/-- The word a pop reads, at SP; the failing address if it is out of range. -/
def State.topOfStack (s : State) : Except Nat Word :=
  match s.readWord s.sp.toNat with
  | some v => .ok v
  | none => .error s.sp.toNat

end Sys2Proof.Machine
end

