-- ==== Sys2Proof/Machine/Flags.lean ====
section
/-! DEFINITION. The condition-code unit (41_condition_codes.md) and the ALU with its flag computations (42_alu_op1.md R150-R158). -/

namespace Sys2Proof.Machine

/-! ### The condition-code register -/

/-- `write`: all three flags at once (R131). `read` is the field `cc` (R130). -/
def State.writeFlags (s : State) (f : Flags) : State := { s with cc := f }

/-- The packing of the flags in a byte: Z = bit 2, S = bit 1, O = bit 0 (10_state.md R30, decision D18; log 16). -/
def packFlags (f : Flags) : Byte := 0#5 ++ BitVec.ofBool f.z ++ BitVec.ofBool f.s ++ BitVec.ofBool f.o

/-- The flags of a byte; bits 7:3 are ignored (10_state.md R32). -/
def unpackFlags (b : Byte) : Flags := ⟨b.getLsbD 2, b.getLsbD 1, b.getLsbD 0⟩

/-- The condition functions (R135). -/
def condHolds (c : Cond) (f : Flags) : Bool :=
  match c with
  | .always => true
  | .le => (f.s ^^ f.o) || f.z
  | .lt => f.s ^^ f.o
  | .eq => f.z
  | .ne => !f.z
  | .ge => !(f.s ^^ f.o)
  | .gt => !(f.s ^^ f.o) && !f.z

/-- `evaluateCondition(sel)` (R132, R135): the condition `COND_MAP` gives the selector, evaluated; none is the fatal case, selectors
7 to 15 (R136). A step looks the selector up when it decodes (`cmovInstr`, `jxxInstr`) and evaluates when it executes. -/
def evaluateCondition (cfg : Config) (sel : Nybble) (f : Flags) : Option Bool := (condOf cfg sel).map (fun c => condHolds c f)

/-! ### The ALU: a result and a full new set of flags (R150) -/

/-- `sign(v)` is v[63] (00_scope.md R10). -/
def sign (v : Word) : Bool := v.msb

/-- Z and S of every operation, with the operation's own O (R152, R153). -/
def resultFlags (r : Word) (overflow : Bool) : Flags := ⟨r == 0, sign r, overflow⟩

/-- Overflow of add (R154). -/
def addOverflow (opA opB r : Word) : Bool := sign opA == sign opB && sign r != sign opA

/-- Overflow of subtract; opA is the subtrahend (R155). -/
def subOverflow (opA opB r : Word) : Bool := sign opA != sign opB && sign r == sign opA

/-- R154. -/
def aluAdd (opA opB : Word) : Word × Flags := (opB + opA, resultFlags (opB + opA) (addOverflow opA opB (opB + opA)))

/-- R155. -/
def aluSubtract (opA opB : Word) : Word × Flags := (opB - opA, resultFlags (opB - opA) (subOverflow opA opB (opB - opA)))

/-- R156. -/
def aluAnd (opA opB : Word) : Word × Flags := (opB &&& opA, resultFlags (opB &&& opA) false)

/-- R157. -/
def aluXor (opA opB : Word) : Word × Flags := (opB ^^^ opA, resultFlags (opB ^^^ opA) false)

end Sys2Proof.Machine
end

