-- ==== Sys2Proof/Machine/Control.lean ====
section
/-! DEFINITION. Control transfer (45_control_transfer.md). Targets are absolute and not checked (R220). -/

namespace Sys2Proof.Machine

/-- Jxx with a defined condition, the shared rule (R220). -/
def conditionalJump (c : Cond) (valC : Word) (s : State) : Host.Outcome State Fault Refusal :=
  .next (if condHolds c s.cc then s.setPc valC else s.advance 9)

/-- R221. -/
def execJmp (valC : Word) (s : State) : Host.Outcome State Fault Refusal := conditionalJump .always valC s

/-- R222. -/
def execJle (valC : Word) (s : State) : Host.Outcome State Fault Refusal := conditionalJump .le valC s

/-- R223. -/
def execJl (valC : Word) (s : State) : Host.Outcome State Fault Refusal := conditionalJump .lt valC s

/-- R224. -/
def execJe (valC : Word) (s : State) : Host.Outcome State Fault Refusal := conditionalJump .eq valC s

/-- R225. -/
def execJne (valC : Word) (s : State) : Host.Outcome State Fault Refusal := conditionalJump .ne valC s

/-- R226. -/
def execJge (valC : Word) (s : State) : Host.Outcome State Fault Refusal := conditionalJump .ge valC s

/-- R227. -/
def execJg (valC : Word) (s : State) : Host.Outcome State Fault Refusal := conditionalJump .gt valC s

/-- `call Dest` (R230): pushes pc + 9 and jumps. -/
def execCall (_ifun : Nybble) (valC : Word) (s : State) : Host.Outcome State Fault Refusal :=
  orBadAddress s ((s.push (s.pc + 9)).map (fun t => t.setPc valC))

/-- `ret` (R231): pops the pc. -/
def execRet (_ifun : Nybble) (s : State) : Host.Outcome State Fault Refusal :=
  orBadAddress s (s.topOfStack.map (fun v => (s.writeSp (s.sp + 8)).setPc v))

end Sys2Proof.Machine
end

