-- ==== Sys2Proof/Machine/HaltNop.lean ====
section
/-! DEFINITION. HALT and NOP (43_halt_nop.md). -/

namespace Sys2Proof.Machine

/-- `halt` (R180): status HALTED, pc unchanged. -/
def execHalt (_ifun : Nybble) (s : State) : Host.Outcome State Fault Refusal := .next (s.setStatus .halted)

/-- `nop` (R181): pc + 1. -/
def execNop (_ifun : Nybble) (s : State) : Host.Outcome State Fault Refusal := .next (s.advance 1)

end Sys2Proof.Machine
end

