-- ==== Sys2Proof/Machine/Operands.lean ====
section
/-! DEFINITION. The operand forms that compute something (30_encoding.md R84): the effective address of RMMOVQ and MRMOVQ, and the value
PUSHQ stores. Register operands are `State.readReg`; valC is used as decoded (R74). -/

namespace Sys2Proof.Machine

/-- `EA(base, d)` (44_moves.md R205): the displacement is added, modulo 2^64, only under `ADD_DISPLACEMENT`. -/
def effectiveAddress (cfg : Config) (base d : Word) : Word := if cfg.addDisplacement then base + d else base

/-- The address RMMOVQ and MRMOVQ access: EA of x[rB] and valC (R201, R202). -/
def State.dataAddress (s : State) (rB : RegId) (d : Word) : Word := effectiveAddress s.cfg (s.readReg rB) d

/-- The value PUSHQ stores (46_stack.md R250): x[rA], but the decremented SP when rA is the stack pointer under `sequential`
(decision D12, log 13). -/
def State.pushValue (s : State) (rA : RegId) : Word :=
  if rA = s.cfg.spIndex ∧ s.cfg.spOperandMode = .sequential then s.pushAddress else s.readReg rA

end Sys2Proof.Machine
end

