-- ==== Sys2Proof/Machine/Moves.lean ====
section
/-! DEFINITION. The moves (44_moves.md). No move writes a flag. -/

namespace Sys2Proof.Machine

/-- CMOVxx with a defined condition, the shared rule (R190). -/
def conditionalMove (c : Cond) (rA rB : RegId) (s : State) : Host.Outcome State Fault Refusal :=
  .next ((if condHolds c s.cc then s.writeReg rB (s.readReg rA) else s).advance 2)

/-- R191. -/
def execRrmovq (rA rB : RegId) (s : State) : Host.Outcome State Fault Refusal := conditionalMove .always rA rB s

/-- R192. -/
def execCmovle (rA rB : RegId) (s : State) : Host.Outcome State Fault Refusal := conditionalMove .le rA rB s

/-- R193. -/
def execCmovl (rA rB : RegId) (s : State) : Host.Outcome State Fault Refusal := conditionalMove .lt rA rB s

/-- R194. -/
def execCmove (rA rB : RegId) (s : State) : Host.Outcome State Fault Refusal := conditionalMove .eq rA rB s

/-- R195. -/
def execCmovne (rA rB : RegId) (s : State) : Host.Outcome State Fault Refusal := conditionalMove .ne rA rB s

/-- R196. -/
def execCmovge (rA rB : RegId) (s : State) : Host.Outcome State Fault Refusal := conditionalMove .ge rA rB s

/-- R197. -/
def execCmovg (rA rB : RegId) (s : State) : Host.Outcome State Fault Refusal := conditionalMove .gt rA rB s

/-- `irmovq $V, rB` (R200). -/
def execIrmovq (_ifun _rA : Nybble) (rB : RegId) (valC : Word) (s : State) : Host.Outcome State Fault Refusal :=
  .next ((s.writeReg rB valC).advance 10)

/-- `rmmovq rA, D(rB)` (R201): one word written at the effective address. -/
def execRmmovq (_ifun : Nybble) (rA rB : RegId) (valC : Word) (s : State) : Host.Outcome State Fault Refusal :=
  let ea := (s.dataAddress rB valC).toNat
  match s.writeWord ea (s.readReg rA) with
  | none => .next (raiseBadAddress ea s)
  | some t => .next (t.advance 10)

/-- `mrmovq D(rB), rA` (R202): one word read at the effective address; the address is in rB, the destination is rA (decision
D10). -/
def execMrmovq (_ifun : Nybble) (rA rB : RegId) (valC : Word) (s : State) : Host.Outcome State Fault Refusal :=
  let ea := (s.dataAddress rB valC).toNat
  match s.readWord ea with
  | none => .next (raiseBadAddress ea s)
  | some v => .next ((s.writeReg rA v).advance 10)

end Sys2Proof.Machine
end

