-- ==== Sys2Proof/Machine/Op1.lean ====
section
/-! DEFINITION. The OP1 family (42_alu_op1.md R151, R160-R163). -/

namespace Sys2Proof.Machine

/-- OP1, the shared rule (R151): both operands are read, then rB and all three flags are written; pc + 2. -/
def op1 (alu : Word → Word → Word × Flags) (rA rB : RegId) (s : State) : Host.Outcome State Fault Refusal :=
  let r := alu (s.readReg rA) (s.readReg rB)
  .next (((s.writeReg rB r.1).writeFlags r.2).advance 2)

/-- R160. -/
def execAddq (rA rB : RegId) (s : State) : Host.Outcome State Fault Refusal := op1 aluAdd rA rB s

/-- R161. -/
def execSubq (rA rB : RegId) (s : State) : Host.Outcome State Fault Refusal := op1 aluSubtract rA rB s

/-- R162. -/
def execAndq (rA rB : RegId) (s : State) : Host.Outcome State Fault Refusal := op1 aluAnd rA rB s

/-- R163. -/
def execXorq (rA rB : RegId) (s : State) : Host.Outcome State Fault Refusal := op1 aluXor rA rB s

end Sys2Proof.Machine
end

