-- ==== Sys2Proof/Machine/Reserved.lean ====
section
/-! DEFINITION. The reserved rows of the opcode table (30_encoding.md R80, R81): the undefined selectors of CMOVxx and Jxx raise the
fatal abort when the condition is evaluated, before any write; the undefined functions and icodes raise BAD_INSTRUCTION. -/

namespace Sys2Proof.Machine

/-- CMOVxx with selector 7 (R190, R136). -/
def execCmovUndef7 (_rA _rB : RegId) (s : State) : Host.Outcome State Fault Refusal := raiseFatal s.pc 7

/-- CMOVxx with selectors 8 to 15 (R190, R136). -/
def execCmovUndef8to15 (low : BitVec 3) (_rA _rB : RegId) (s : State) : Host.Outcome State Fault Refusal :=
  raiseFatal s.pc (eightPlus low)

/-- Jxx with selector 7 (R220, R136). -/
def execJxxUndef7 (_valC : Word) (s : State) : Host.Outcome State Fault Refusal := raiseFatal s.pc 7

/-- Jxx with selectors 8 to 15 (R220, R136). -/
def execJxxUndef8to15 (low : BitVec 3) (_valC : Word) (s : State) : Host.Outcome State Fault Refusal :=
  raiseFatal s.pc (eightPlus low)

/-- OP1 with ifun 4 to 7 (R81, R263). -/
def execOp1Undef4to7 (_low : BitVec 2) (s : State) : Host.Outcome State Fault Refusal := .next (raiseBadInstruction s)

/-- OP1 with ifun 8 to 15 (R81, R263). -/
def execOp1Undef8to15 (_low : BitVec 3) (s : State) : Host.Outcome State Fault Refusal := .next (raiseBadInstruction s)

/-- An unrecognised icode (R80, R263). -/
def execUnknownIcode (_low : BitVec 2) (_ifun : Nybble) (s : State) : Host.Outcome State Fault Refusal :=
  .next (raiseBadInstruction s)

end Sys2Proof.Machine
end

