-- ==== Sys2Proof/Machine/Stack.lean ====
section
/-! DEFINITION. PUSHQ and POPQ (46_stack.md). -/

namespace Sys2Proof.Machine

/-- `pushq rA` (R250). -/
def execPushq (_ifun : Nybble) (rA : RegId) (_rB : Nybble) (s : State) : Host.Outcome State Fault Refusal :=
  orBadAddress s ((s.push (s.pushValue rA)).map (fun t => t.advance 2))

/-- The two register writes of POPQ, in the order `SP_OPERAND_MODE` gives (R251; decision D12, log 13). -/
def State.popInto (s : State) (rA : RegId) (v : Word) : State :=
  match s.cfg.spOperandMode with
  | .sequential => let t := s.writeReg rA v; t.writeSp (t.sp + 8)
  | .y86 => (s.writeSp (s.sp + 8)).writeReg rA v

/-- `popq rA` (R251). -/
def execPopq (_ifun : Nybble) (rA : RegId) (_rB : Nybble) (s : State) : Host.Outcome State Fault Refusal :=
  orBadAddress s (s.topOfStack.map (fun v => (s.popInto rA v).advance 2))

end Sys2Proof.Machine
end

