-- ==== Sys2Proof/Machine/Dispatch.lean ====
section
/-! DEFINITION. Dispatch (40_cycle.md R107): one arm per constructor, one meaning per arm. -/

namespace Sys2Proof.Machine

def exec (i : Instr) (s : State) : Host.Outcome State Fault Refusal :=
  match i with
  | .halt ifun => Sys2Proof.Machine.execHalt ifun s
  | .nop ifun => Sys2Proof.Machine.execNop ifun s
  | .rrmovq rA rB => Sys2Proof.Machine.execRrmovq rA rB s
  | .cmovle rA rB => Sys2Proof.Machine.execCmovle rA rB s
  | .cmovl rA rB => Sys2Proof.Machine.execCmovl rA rB s
  | .cmove rA rB => Sys2Proof.Machine.execCmove rA rB s
  | .cmovne rA rB => Sys2Proof.Machine.execCmovne rA rB s
  | .cmovge rA rB => Sys2Proof.Machine.execCmovge rA rB s
  | .cmovg rA rB => Sys2Proof.Machine.execCmovg rA rB s
  | .irmovq ifun rA rB valC => Sys2Proof.Machine.execIrmovq ifun rA rB valC s
  | .rmmovq ifun rA rB valC => Sys2Proof.Machine.execRmmovq ifun rA rB valC s
  | .mrmovq ifun rA rB valC => Sys2Proof.Machine.execMrmovq ifun rA rB valC s
  | .addq rA rB => Sys2Proof.Machine.execAddq rA rB s
  | .subq rA rB => Sys2Proof.Machine.execSubq rA rB s
  | .andq rA rB => Sys2Proof.Machine.execAndq rA rB s
  | .xorq rA rB => Sys2Proof.Machine.execXorq rA rB s
  | .jmp valC => Sys2Proof.Machine.execJmp valC s
  | .jle valC => Sys2Proof.Machine.execJle valC s
  | .jl valC => Sys2Proof.Machine.execJl valC s
  | .je valC => Sys2Proof.Machine.execJe valC s
  | .jne valC => Sys2Proof.Machine.execJne valC s
  | .jge valC => Sys2Proof.Machine.execJge valC s
  | .jg valC => Sys2Proof.Machine.execJg valC s
  | .call ifun valC => Sys2Proof.Machine.execCall ifun valC s
  | .ret ifun => Sys2Proof.Machine.execRet ifun s
  | .pushq ifun rA rB => Sys2Proof.Machine.execPushq ifun rA rB s
  | .popq ifun rA rB => Sys2Proof.Machine.execPopq ifun rA rB s
  | .cmovUndef7 rA rB => Sys2Proof.Machine.execCmovUndef7 rA rB s
  | .cmovUndef8to15 low rA rB => Sys2Proof.Machine.execCmovUndef8to15 low rA rB s
  | .jxxUndef7 valC => Sys2Proof.Machine.execJxxUndef7 valC s
  | .jxxUndef8to15 low valC => Sys2Proof.Machine.execJxxUndef8to15 low valC s
  | .op1Undef4to7 low => Sys2Proof.Machine.execOp1Undef4to7 low s
  | .op1Undef8to15 low => Sys2Proof.Machine.execOp1Undef8to15 low s
  | .unknownIcode low ifun => Sys2Proof.Machine.execUnknownIcode low ifun s

end Sys2Proof.Machine
end

