-- ==== Sys2Proof/Machine/Fetch.lean ====
section
/-! DEFINITION. Fetching the instruction at pc (40_cycle.md R102-R106): the opcode byte, the class checks, then every remaining byte, at
unbounded-integer addresses, before anything is written. -/

namespace Sys2Proof.Machine

/-- What the fetch and decode part of a step gives. -/
inductive Fetched
  | instr (i : Instr)
  | badAddress (addr : Nat)
  | badInstruction
  deriving DecidableEq, Repr

/-- The register byte at pc + 1 (R105). -/
def State.fetchRegByte (s : State) : Except Nat Byte :=
  match s.readByte (s.pc.toNat + 1) with
  | some b => .ok b
  | none => .error (s.pc.toNat + 1)

/-- valC at pc + offset (R74, R105). -/
def State.fetchValC (s : State) (offset : Nat) : Except Nat Word :=
  match s.readWord (s.pc.toNat + offset) with
  | some v => .ok v
  | none => .error (s.pc.toNat + offset)

/-- The register byte and valC of a format, 0 for one it lacks; or the address that failed (R105). -/
def State.fetchOperands (s : State) : Format → Except Nat (Byte × Word)
  | .F1 => .ok (0, 0)
  | .F2 => s.fetchRegByte.map (fun b => (b, 0))
  | .F9 => (s.fetchValC 1).map (fun v => (0, v))
  | .F10 => s.fetchRegByte.bind (fun b => (s.fetchValC 2).map (fun v => (b, v)))

/-- The instruction at pc, or the event that ends the step before it executes (R100, R266 items 2 to 4). -/
def State.fetchInstr (s : State) : Fetched :=
  match s.readByte s.pc.toNat with
  | none => .badAddress s.pc.toNat
  | some b0 =>
    match decodeOpcode s.cfg b0 with
    | .whole i => .instr i
    | .rejected _ => .badInstruction
    | .operands cls ifun =>
      match s.fetchOperands cls.format with
      | .ok (regByte, valC) => .instr (assemble s.cfg cls ifun regByte valC)
      | .error addr => .badAddress addr

/-- The bytes from pc on, up to the longest instruction or the end of memory: what the decoder may read. -/
def State.codeBytes (s : State) : List Byte :=
  s.mem.readBytes s.pc.toNat (min 10 (s.cfg.memSize - s.pc.toNat))

end Sys2Proof.Machine
end

