-- ==== Sys2Proof/Machine/Step.lean ====
section
/-! DEFINITION. One step (40_cycle.md R100), and the placing of an instruction where the next step fetches it. -/

namespace Sys2Proof.Machine

/-- The step with the status OK: fetch, decode, execute, and the end of the step (R100, R108). -/
def stepRunning (s : State) : Host.Outcome State Fault Refusal :=
  match s.fetchInstr with
  | .badAddress addr => .next (raiseBadAddress addr s)
  | .badInstruction => .next (raiseBadInstruction s)
  | .instr i =>
    match exec i s with
    | .next t => .next (endOfStep t)
    | .fault r => .fault r
    | .refused r => .refused r

/-- One step request (R100). The status guard comes first: in a terminal status nothing is read or written (R101). -/
def step (s : State) : Host.Outcome State Fault Refusal :=
  match s.status with
  | .ok => stepRunning s
  | .halted => .next s
  | .badAddress => .next s
  | .badInstruction => .next s

/-- The machine with an instruction word placed at pc, as the loader places a program (R60, R291), and the status OK that a
step needs (R291 item 3): log 7. Bytes past the end of memory are not placed. -/
def State.withFetchWord (s : State) (nbits w : Nat) : State :=
  (s.setStatus .ok).loadBytes s.pc.toNat (tableBytes nbits w)

end Sys2Proof.Machine
end

