-- ==== Sys2Proof/Machine/HostPort.lean ====
section
/-! DEFINITION. The host-access port (10_state.md R28, R32, R33): the host's reads and writes of the block's own state, between steps.
The register file's and the memory's accessors (R34) are `State.readReg`, `State.writeReg` and the four primitives of Ops.lean. -/

namespace Sys2Proof.Machine

/-- The status numbers of the port (R28, decision D19). -/
def Status.code : Status → Nat
  | .ok => 1
  | .halted => 2
  | .badAddress => 3
  | .badInstruction => 4

/-- The status a number names (R28). -/
def statusOfCode : Nat → Option Status
  | 1 => some .ok
  | 2 => some .halted
  | 3 => some .badAddress
  | 4 => some .badInstruction
  | _ => none

/-- `readPC()`. -/
def State.readPC (s : State) : Word := s.pc

/-- `writePC(address)`. -/
def State.writePC (s : State) (address : Word) : State := s.setPc address

/-- `readStatus()`. -/
def State.readStatus (s : State) : Nat := s.status.code

/-- `writeStatus(status)`: a number other than 1 to 4 is refused (R28). -/
def State.writeStatus (s : State) (n : Nat) : Host.Outcome State Fault Refusal :=
  match statusOfCode n with
  | some st => .next (s.setStatus st)
  | none => .refused (.badStatusNumber n)

/-- `readConditionCodes()` (R30, R32). -/
def State.readConditionCodes (s : State) : Byte := packFlags s.cc

/-- `writeConditionCodes(byte)` (R32). -/
def State.writeConditionCodes (s : State) (b : Byte) : State := s.writeFlags (unpackFlags b)

end Sys2Proof.Machine
end

