-- ==== Sys2Proof/Safety.lean ====
section
/-! DEFINITION. The terms claims use: the invariant of a state, the launch premise (70_reset_and_hazards.md R292), and how a run ends
(40_cycle.md R112; 60_exceptions.md R277). -/

namespace Sys2Proof.Machine

/-- The invariant: MEM_SIZE within the spec's bound (R50), memory in canonical form, every listed byte inside memory. -/
structure State.Inv (s : State) : Prop where
  config : s.cfg.wf
  canonical : s.mem.wf
  inRange : ∀ c ∈ s.mem, c.1 < s.cfg.memSize

/-- HALTED is the only final status (R277). -/
def Status.isFinal : Status → Bool
  | .halted => true
  | .ok | .badAddress | .badInstruction => false

/-- The two fault statuses (R260, R277). -/
def Status.isFault : Status → Bool
  | .badAddress | .badInstruction => true
  | .ok | .halted => false

/-- The terminal statuses (R28). -/
def Status.isTerminal (st : Status) : Bool := st.isFinal || st.isFault

/-- A run from s ends well: some number of steps reaches HALTED (R112). -/
def EndsWell (s : State) : Prop := ∃ k t, Host.Core.run core k s = .next t ∧ t.status.isFinal = true

/-- A run from s faults: some number of steps reaches a fault status or the fatal abort (R112). -/
def Faults (s : State) : Prop :=
  (∃ k t, Host.Core.run core k s = .next t ∧ t.status.isFault = true) ∨ ∃ k f, Host.Core.run core k s = .fault f

/-- The launch premise for claims (R292; log 8): status OK, pc at the entry address, the image at base within memory, and the stack
region [stackLo, stackHi) in range and disjoint from the image. -/
structure CleanLaunch (s : State) (image : List Byte) (base stackLo stackHi : Nat) : Prop where
  inv : s.Inv
  running : s.status = .ok
  atEntry : s.pc = s.cfg.entry
  imageInRange : base + image.length ≤ s.cfg.memSize
  imageLoaded : ∀ k (h : k < image.length), s.mem.read (base + k) = image[k]
  stackInRange : stackLo ≤ stackHi ∧ stackHi ≤ s.cfg.memSize
  stackDisjoint : stackHi ≤ base ∨ base + image.length ≤ stackLo

end Sys2Proof.Machine
end

