-- ==== Sys2Proof/Certificates/Slice0/Obligations.lean ====
section
/-! DEFINITION. The statements for the provers. Each docstring names the rule of spec/ a statement formalises; where the rule is
marked there as the spec's own decision or inference, or where a value is the model's choice, the docstring says so. `t.readByte a
= s.readByte a` for every a says that no byte of memory differs. `encode defaultConfig` is the encoding with ICODE_MAP and
COND_MAP at their defaults (log 9). -/

open Sys2Proof Sys2Proof.Machine

/-! ### The OP1 family -/

/-- R160 with R154's result and overflow: `addq rA, rB`, encoded `60 rA:rB`, completes in every state; rB and all three flags are
written, pc moves by 2, and nothing else changes. -/
def Obligations.AddqWritesSumAndAllFlags : Prop :=
  ∀ (rA rB : RegId) (s : State),
    encode defaultConfig (.addq rA rB) = [0x60, rA ++ rB] ∧
    ∃ t, exec (.addq rA rB) s = .next t ∧
      t.readReg rB = s.readReg rB + s.readReg rA ∧
      (t.cc.z = true ↔ s.readReg rB + s.readReg rA = 0) ∧
      t.cc.s = (s.readReg rB + s.readReg rA).getLsbD 63 ∧
      (t.cc.o = true ↔ (s.readReg rA).getLsbD 63 = (s.readReg rB).getLsbD 63 ∧
        (s.readReg rB + s.readReg rA).getLsbD 63 ≠ (s.readReg rA).getLsbD 63) ∧
      t.pc = s.pc + 2 ∧ (∀ r, r ≠ rB → t.readReg r = s.readReg r) ∧
      (∀ a, t.readByte a = s.readByte a) ∧ t.status = s.status ∧ t.cfg = s.cfg

/-- R161 with R155's result and overflow: `subq rA, rB`, encoded `61 rA:rB`, computes rB - rA; x[rA] is the subtrahend. -/
def Obligations.SubqWritesDifferenceAndAllFlags : Prop :=
  ∀ (rA rB : RegId) (s : State),
    encode defaultConfig (.subq rA rB) = [0x61, rA ++ rB] ∧
    ∃ t, exec (.subq rA rB) s = .next t ∧
      t.readReg rB = s.readReg rB - s.readReg rA ∧
      (t.cc.z = true ↔ s.readReg rB - s.readReg rA = 0) ∧
      t.cc.s = (s.readReg rB - s.readReg rA).getLsbD 63 ∧
      (t.cc.o = true ↔ (s.readReg rA).getLsbD 63 ≠ (s.readReg rB).getLsbD 63 ∧
        (s.readReg rB - s.readReg rA).getLsbD 63 = (s.readReg rA).getLsbD 63) ∧
      t.pc = s.pc + 2 ∧ (∀ r, r ≠ rB → t.readReg r = s.readReg r) ∧
      (∀ a, t.readByte a = s.readByte a) ∧ t.status = s.status ∧ t.cfg = s.cfg

/-- R162 with R156: `andq rA, rB`, encoded `62 rA:rB`; O is cleared. -/
def Obligations.AndqWritesConjunctionAndAllFlags : Prop :=
  ∀ (rA rB : RegId) (s : State),
    encode defaultConfig (.andq rA rB) = [0x62, rA ++ rB] ∧
    ∃ t, exec (.andq rA rB) s = .next t ∧
      t.readReg rB = s.readReg rB &&& s.readReg rA ∧
      (t.cc.z = true ↔ s.readReg rB &&& s.readReg rA = 0) ∧
      t.cc.s = (s.readReg rB &&& s.readReg rA).getLsbD 63 ∧ t.cc.o = false ∧
      t.pc = s.pc + 2 ∧ (∀ r, r ≠ rB → t.readReg r = s.readReg r) ∧
      (∀ a, t.readByte a = s.readByte a) ∧ t.status = s.status ∧ t.cfg = s.cfg

/-- R163 with R157: `xorq rA, rB`, encoded `63 rA:rB`; O is cleared. -/
def Obligations.XorqWritesDisjunctionAndAllFlags : Prop :=
  ∀ (rA rB : RegId) (s : State),
    encode defaultConfig (.xorq rA rB) = [0x63, rA ++ rB] ∧
    ∃ t, exec (.xorq rA rB) s = .next t ∧
      t.readReg rB = s.readReg rB ^^^ s.readReg rA ∧
      (t.cc.z = true ↔ s.readReg rB ^^^ s.readReg rA = 0) ∧
      t.cc.s = (s.readReg rB ^^^ s.readReg rA).getLsbD 63 ∧ t.cc.o = false ∧
      t.pc = s.pc + 2 ∧ (∀ r, r ≠ rB → t.readReg r = s.readReg r) ∧
      (∀ a, t.readByte a = s.readByte a) ∧ t.status = s.status ∧ t.cfg = s.cfg

/-- R159 (the spec marks it derived): the overflow flag an addq or subq leaves is set exactly when the exact signed result lies
outside [-2^63, 2^63 - 1]. -/
def Obligations.OverflowFlagIsExactSignedOverflow : Prop :=
  ∀ (rA rB : RegId) (s t : State),
    (exec (.addq rA rB) s = .next t →
      (t.cc.o = true ↔ ¬ (-2 ^ 63 ≤ (s.readReg rB).toInt + (s.readReg rA).toInt ∧
        (s.readReg rB).toInt + (s.readReg rA).toInt ≤ 2 ^ 63 - 1))) ∧
    (exec (.subq rA rB) s = .next t →
      (t.cc.o = true ↔ ¬ (-2 ^ 63 ≤ (s.readReg rB).toInt - (s.readReg rA).toInt ∧
        (s.readReg rB).toInt - (s.readReg rA).toInt ≤ 2 ^ 63 - 1)))

/-! ### The condition-code unit -/

/-- 41_condition_codes.md R135, the value of every defined selector, for all flags, as it numbers them, which is COND_MAP at its
default (decision D2; log 9); and none for 7 to 15 (R136) under any COND_MAP, which is deduced (log 20). -/
def Obligations.ConditionFunctions : Prop :=
  ∀ f : Flags,
    evaluateCondition defaultConfig 0 f = some true ∧
    evaluateCondition defaultConfig 1 f = some ((f.s ^^ f.o) || f.z) ∧
    evaluateCondition defaultConfig 2 f = some (f.s ^^ f.o) ∧
    evaluateCondition defaultConfig 3 f = some f.z ∧
    evaluateCondition defaultConfig 4 f = some (!f.z) ∧
    evaluateCondition defaultConfig 5 f = some (!(f.s ^^ f.o)) ∧
    evaluateCondition defaultConfig 6 f = some (!(f.s ^^ f.o) && !f.z) ∧
    ∀ (cfg : Config) (sel : Nybble), 7 ≤ sel → evaluateCondition cfg sel f = none

/-- 44_moves.md and 45_control_transfer.md, the shared rules of CMOVxx and Jxx, with 41_condition_codes.md's evaluateCondition
(COND_MAP is decision D2, the abort D17; logs 9, 15): under any map, the instruction decoded from a selector moves or jumps as
evaluateCondition of the selector says, and aborts where it has no value. -/
def Obligations.SelectorsRunTheSharedRules : Prop :=
  ∀ (cfg : Config) (sel : Nybble) (rA rB : RegId) (dest : Word) (s : State),
    (evaluateCondition cfg sel s.cc = some true →
      exec (cmovInstr cfg sel rA rB) s = .next { s.writeReg rB (s.readReg rA) with pc := s.pc + 2 } ∧
      exec (jxxInstr cfg sel dest) s = .next { s with pc := dest }) ∧
    (evaluateCondition cfg sel s.cc = some false →
      exec (cmovInstr cfg sel rA rB) s = .next { s with pc := s.pc + 2 } ∧
      exec (jxxInstr cfg sel dest) s = .next { s with pc := s.pc + 9 }) ∧
    (evaluateCondition cfg sel s.cc = none →
      exec (cmovInstr cfg sel rA rB) s = .fault (.fatalAbort s.pc sel) ∧
      exec (jxxInstr cfg sel dest) s = .fault (.fatalAbort s.pc sel))

/-- R137 (the spec marks it derived): after subq the six conditions compare the old x[rB] with the old x[rA] as signed words. -/
def Obligations.ConditionsAfterSubqCompareSigned : Prop :=
  ∀ (rA rB : RegId) (s t : State), exec (.subq rA rB) s = .next t →
    condHolds .le t.cc = decide ((s.readReg rB).toInt ≤ (s.readReg rA).toInt) ∧
    condHolds .lt t.cc = decide ((s.readReg rB).toInt < (s.readReg rA).toInt) ∧
    condHolds .eq t.cc = decide (s.readReg rB = s.readReg rA) ∧
    condHolds .ne t.cc = decide (s.readReg rB ≠ s.readReg rA) ∧
    condHolds .ge t.cc = decide ((s.readReg rB).toInt ≥ (s.readReg rA).toInt) ∧
    condHolds .gt t.cc = decide ((s.readReg rB).toInt > (s.readReg rA).toInt)

/-- R31: OP1 writes all three flags, whatever they were; no other instruction writes one; and an instruction that is neither OP1,
CMOVxx nor Jxx does the same whatever the flags are. -/
def Obligations.FlagsWrittenByOp1AndReadByCmovAndJxx : Prop :=
  ∀ (i : Instr) (s : State) (f : Flags),
    (i.mnemonic ∈ ["addq", "subq", "andq", "xorq"] → exec i { s with cc := f } = exec i s) ∧
    (i.mnemonic ∉ ["addq", "subq", "andq", "xorq"] → ∀ t, exec i s = .next t → t.cc = s.cc) ∧
    (i.mnemonic ∉ ["addq", "subq", "andq", "xorq", "rrmovq", "cmovle", "cmovl", "cmove", "cmovne", "cmovge", "cmovg",
        "jmp", "jle", "jl", "je", "jne", "jge", "jg"] →
      ∀ t, exec i s = .next t → exec i { s with cc := f } = .next { t with cc := f })

/-- 41_condition_codes.md R136, the undefined selectors (marked with decision D17; log 15): CMOVxx and Jxx with selector 7 to 15
abort with the instruction's address and the selector, and there is no next state. -/
def Obligations.UndefinedSelectorsAbort : Prop :=
  ∀ (rA rB : RegId) (dest : Word) (low : BitVec 3) (s : State),
    exec (.cmovUndef7 rA rB) s = .fault (.fatalAbort s.pc 7) ∧
    exec (.cmovUndef8to15 low rA rB) s = .fault (.fatalAbort s.pc (BitVec.ofNat 4 (8 + low.toNat))) ∧
    exec (.jxxUndef7 dest) s = .fault (.fatalAbort s.pc 7) ∧
    exec (.jxxUndef8to15 low dest) s = .fault (.fatalAbort s.pc (BitVec.ofNat 4 (8 + low.toNat)))

/-! ### HALT and NOP -/

/-- R180: halt, encoded `00`, sets HALTED, leaves pc and everything else, and every later step changes nothing. -/
def Obligations.HaltStopsTheMachine : Prop :=
  encode defaultConfig (.halt 0) = [0x00] ∧
  ∀ (ifun : Nybble) (s : State), ∃ t, exec (.halt ifun) s = .next t ∧ t = { s with status := .halted } ∧ step t = .next t

/-- R181: nop, encoded `10`, moves pc by 1 and changes nothing else. -/
def Obligations.NopAdvancesOneByte : Prop :=
  encode defaultConfig (.nop 0) = [0x10] ∧
  ∀ (ifun : Nybble) (s : State), ∃ t, exec (.nop ifun) s = .next t ∧ t = { s with pc := s.pc + 1 }

/-! ### Moves -/

/-- R191 to R197: each conditional move completes in every state, copies x[rA] to x[rB] exactly when its condition holds, moves pc by
2 and changes nothing else. -/
def Obligations.ConditionalMovesCopyWhenConditionHolds : Prop :=
  ∀ (rA rB : RegId) (s : State) (i : Instr) (opcode : Byte) (taken : Bool),
    (i, opcode, taken) ∈
      [(Instr.rrmovq rA rB, (0x20 : Byte), true),
       (.cmovle rA rB, 0x21, (s.cc.s ^^ s.cc.o) || s.cc.z),
       (.cmovl rA rB, 0x22, s.cc.s ^^ s.cc.o),
       (.cmove rA rB, 0x23, s.cc.z),
       (.cmovne rA rB, 0x24, !s.cc.z),
       (.cmovge rA rB, 0x25, !(s.cc.s ^^ s.cc.o)),
       (.cmovg rA rB, 0x26, !(s.cc.s ^^ s.cc.o) && !s.cc.z)] →
    encode defaultConfig i = [opcode, rA ++ rB] ∧
    ∃ t, exec i s = .next t ∧
      t.readReg rB = (if taken then s.readReg rA else s.readReg rB) ∧
      t.pc = s.pc + 2 ∧ (∀ r, r ≠ rB → t.readReg r = s.readReg r) ∧
      (∀ a, t.readByte a = s.readByte a) ∧ t.cc = s.cc ∧ t.status = s.status ∧ t.cfg = s.cfg

/-- R200: irmovq, encoded `30 F:rB V[8]`, writes the 8-byte immediate to rB, moves pc by 10 and changes nothing else; a non-0xF rA
is ignored. -/
def Obligations.IrmovqLoadsImmediate : Prop :=
  ∀ (ifun rA : Nybble) (rB : RegId) (v : Word) (s : State),
    encode defaultConfig (.irmovq 0 0xF rB v) = 0x30 :: (0xF#4 ++ rB) :: wordBytes v ∧
    ∃ t, exec (.irmovq ifun rA rB v) s = .next t ∧
      t.readReg rB = v ∧ t.pc = s.pc + 10 ∧ (∀ r, r ≠ rB → t.readReg r = s.readReg r) ∧
      (∀ a, t.readByte a = s.readByte a) ∧ t.cc = s.cc ∧ t.status = s.status ∧ t.cfg = s.cfg

/-- 44_moves.md, rmmovq, encoded `40 rA:rB D[8]`: it stores x[rA] at the effective address, least significant byte first, when the
word is in range, every other byte as before; out of range it is BAD_ADDRESS with nothing else changed. The order of the bytes is
decision D4 (log 10), the effective address `State.dataAddress` decision D11 (log 12), the failing case decision D15 (log 14). -/
def Obligations.RmmovqStoresWord : Prop :=
  ∀ (ifun : Nybble) (rA rB : RegId) (d : Word) (s : State),
    encode defaultConfig (.rmmovq 0 rA rB d) = 0x40 :: (rA ++ rB) :: wordBytes d ∧
    ((s.dataAddress rB d).toNat + 8 ≤ s.cfg.memSize →
      ∃ t, exec (.rmmovq ifun rA rB d) s = .next t ∧
        (∀ k, k < 8 → t.readByte ((s.dataAddress rB d).toNat + k) = some ((s.readReg rA).extractLsb' (8 * k) 8)) ∧
        (∀ a, a < (s.dataAddress rB d).toNat ∨ (s.dataAddress rB d).toNat + 8 ≤ a → t.readByte a = s.readByte a) ∧
        t.pc = s.pc + 10 ∧ (∀ r, t.readReg r = s.readReg r) ∧ t.cc = s.cc ∧ t.status = s.status ∧ t.cfg = s.cfg) ∧
    (s.cfg.memSize < (s.dataAddress rB d).toNat + 8 →
      exec (.rmmovq ifun rA rB d) s = .next { s with status := .badAddress })

/-- 44_moves.md, mrmovq (address in rB and destination rA are decision D10, log 9; the order of the bytes D4, log 10; the effective
address D11, log 12; the failing case D15, log 14): it loads the word at the effective address into rA when
it is in range; out of range it is BAD_ADDRESS with no register written and pc unchanged. -/
def Obligations.MrmovqLoadsWord : Prop :=
  ∀ (ifun : Nybble) (rA rB : RegId) (d : Word) (s : State),
    encode defaultConfig (.mrmovq 0 rA rB d) = 0x50 :: (rA ++ rB) :: wordBytes d ∧
    ((s.dataAddress rB d).toNat + 8 ≤ s.cfg.memSize →
      ∃ t, exec (.mrmovq ifun rA rB d) s = .next t ∧
        (∀ k, k < 8 → s.readByte ((s.dataAddress rB d).toNat + k) = some ((t.readReg rA).extractLsb' (8 * k) 8)) ∧
        t.pc = s.pc + 10 ∧ (∀ r, r ≠ rA → t.readReg r = s.readReg r) ∧
        (∀ a, t.readByte a = s.readByte a) ∧ t.cc = s.cc ∧ t.status = s.status ∧ t.cfg = s.cfg) ∧
    (s.cfg.memSize < (s.dataAddress rB d).toNat + 8 →
      exec (.mrmovq ifun rA rB d) s = .next { s with status := .badAddress })

/-- 44_moves.md, the effective address (decision D11; log 12): without ADD_DISPLACEMENT the 8-byte field has no effect on rmmovq and
mrmovq and the address is x[rB]; with it the address is x[rB] + D modulo 2^64. -/
def Obligations.DisplacementCountsOnlyWhenAdded : Prop :=
  ∀ (ifun : Nybble) (rA rB : RegId) (d e : Word) (s : State),
    (s.cfg.addDisplacement = false →
      s.dataAddress rB d = s.readReg rB ∧
      exec (.rmmovq ifun rA rB d) s = exec (.rmmovq ifun rA rB e) s ∧
      exec (.mrmovq ifun rA rB d) s = exec (.mrmovq ifun rA rB e) s) ∧
    (s.cfg.addDisplacement = true →
      (s.dataAddress rB d).toNat = ((s.readReg rB).toNat + d.toNat) % 2 ^ 64)

/-! ### Control transfer -/

/-- R221 to R227: each jump completes in every state; pc becomes the absolute target when the condition holds and pc + 9 otherwise;
nothing else changes. The order of the target's bytes is decision D4 (log 10). -/
def Obligations.JumpsSetPcWhenConditionHolds : Prop :=
  ∀ (dest : Word) (s : State) (i : Instr) (opcode : Byte) (taken : Bool),
    (i, opcode, taken) ∈
      [(Instr.jmp dest, (0x70 : Byte), true),
       (.jle dest, 0x71, (s.cc.s ^^ s.cc.o) || s.cc.z),
       (.jl dest, 0x72, s.cc.s ^^ s.cc.o),
       (.je dest, 0x73, s.cc.z),
       (.jne dest, 0x74, !s.cc.z),
       (.jge dest, 0x75, !(s.cc.s ^^ s.cc.o)),
       (.jg dest, 0x76, !(s.cc.s ^^ s.cc.o) && !s.cc.z)] →
    encode defaultConfig i = opcode :: wordBytes dest ∧
    ∃ t, exec i s = .next t ∧ t = { s with pc := if taken then dest else s.pc + 9 }

/-- 45_control_transfer.md, call (the failing case is decision D15, log 14; the order of the bytes D4, log 10): with the push
address in range, the return address pc + 9 is stored at SP - 8, SP becomes that address and pc the target; otherwise BAD_ADDRESS
with SP, memory and pc unchanged. -/
def Obligations.CallPushesReturnAddress : Prop :=
  ∀ (ifun : Nybble) (dest : Word) (s : State),
    encode defaultConfig (.call 0 dest) = 0x80 :: wordBytes dest ∧
    ((s.readReg s.cfg.spIndex - 8).toNat + 8 ≤ s.cfg.memSize →
      ∃ t, exec (.call ifun dest) s = .next t ∧
        (∀ k, k < 8 → t.readByte ((s.readReg s.cfg.spIndex - 8).toNat + k) = some ((s.pc + 9).extractLsb' (8 * k) 8)) ∧
        (∀ a, a < (s.readReg s.cfg.spIndex - 8).toNat ∨ (s.readReg s.cfg.spIndex - 8).toNat + 8 ≤ a →
          t.readByte a = s.readByte a) ∧
        t.readReg s.cfg.spIndex = s.readReg s.cfg.spIndex - 8 ∧ t.pc = dest ∧
        (∀ r, r ≠ s.cfg.spIndex → t.readReg r = s.readReg r) ∧ t.cc = s.cc ∧ t.status = s.status ∧ t.cfg = s.cfg) ∧
    (s.cfg.memSize < (s.readReg s.cfg.spIndex - 8).toNat + 8 →
      exec (.call ifun dest) s = .next { s with status := .badAddress })

/-- 45_control_transfer.md, ret (the failing case is decision D15; log 14), encoded `90`, pops the pc: with the word at SP in
range, pc becomes that word and SP moves by 8; otherwise BAD_ADDRESS with SP and pc unchanged. -/
def Obligations.RetPopsPc : Prop :=
  encode defaultConfig (.ret 0) = [0x90] ∧
  ∀ (ifun : Nybble) (s : State),
    ((s.readReg s.cfg.spIndex).toNat + 8 ≤ s.cfg.memSize →
      ∃ t, exec (.ret ifun) s = .next t ∧
        s.readWord (s.readReg s.cfg.spIndex).toNat = some t.pc ∧
        t.readReg s.cfg.spIndex = s.readReg s.cfg.spIndex + 8 ∧
        (∀ r, r ≠ s.cfg.spIndex → t.readReg r = s.readReg r) ∧
        (∀ a, t.readByte a = s.readByte a) ∧ t.cc = s.cc ∧ t.status = s.status ∧ t.cfg = s.cfg) ∧
    (s.cfg.memSize < (s.readReg s.cfg.spIndex).toNat + 8 →
      exec (.ret ifun) s = .next { s with status := .badAddress })

/-- 45_control_transfer.md, CALL then RET (the spec marks it derived): a ret in any state that kept SP and the word at SP as the call
left them returns to the byte after the call with the SP from before it. -/
def Obligations.CallThenRetReturns : Prop :=
  ∀ (f g : Nybble) (dest : Word) (s t u : State),
    s.wordInRange (s.readReg s.cfg.spIndex - 8).toNat → exec (.call f dest) s = .next t →
    u.cfg = t.cfg → u.readReg s.cfg.spIndex = t.readReg s.cfg.spIndex →
    u.readWord (t.readReg s.cfg.spIndex).toNat = t.readWord (t.readReg s.cfg.spIndex).toNat →
    ∃ w, exec (.ret g) u = .next w ∧ w.pc = s.pc + 9 ∧ w.readReg s.cfg.spIndex = s.readReg s.cfg.spIndex

/-! ### Stack instructions -/

/-- 46_stack.md, pushq (the stack pointer's own case is decision D12, log 13; the order of the bytes D4, log 10; the failing case
D15, log 14): with the push address in range, x[rA] is stored at
SP - 8 (for rA the stack pointer: the decremented value under `sequential`, the old value under `y86`) and SP becomes that
address; otherwise BAD_ADDRESS with SP, memory and pc unchanged. -/
def Obligations.PushqStoresRegister : Prop :=
  ∀ (ifun rB : Nybble) (rA : RegId) (s : State),
    encode defaultConfig (.pushq 0 rA 0xF) = [0xA0, rA ++ 0xF#4] ∧
    ((s.readReg s.cfg.spIndex - 8).toNat + 8 ≤ s.cfg.memSize →
      ∃ t v, exec (.pushq ifun rA rB) s = .next t ∧
        (rA = s.cfg.spIndex ∧ s.cfg.spOperandMode = .sequential → v = s.readReg rA - 8) ∧
        (¬ (rA = s.cfg.spIndex ∧ s.cfg.spOperandMode = .sequential) → v = s.readReg rA) ∧
        (∀ k, k < 8 → t.readByte ((s.readReg s.cfg.spIndex - 8).toNat + k) = some (v.extractLsb' (8 * k) 8)) ∧
        (∀ a, a < (s.readReg s.cfg.spIndex - 8).toNat ∨ (s.readReg s.cfg.spIndex - 8).toNat + 8 ≤ a →
          t.readByte a = s.readByte a) ∧
        t.readReg s.cfg.spIndex = s.readReg s.cfg.spIndex - 8 ∧ t.pc = s.pc + 2 ∧
        (∀ r, r ≠ s.cfg.spIndex → t.readReg r = s.readReg r) ∧ t.cc = s.cc ∧ t.status = s.status ∧ t.cfg = s.cfg) ∧
    (s.cfg.memSize < (s.readReg s.cfg.spIndex - 8).toNat + 8 →
      exec (.pushq ifun rA rB) s = .next { s with status := .badAddress })

/-- 46_stack.md, popq (the stack pointer's own case is decision D12, log 13; the failing case D15, log 14): with v the word at SP,
x[rA] becomes v and SP moves by 8; for rA the stack pointer it becomes v + 8 under `sequential` and v under `y86`. Out of range it
is BAD_ADDRESS with SP, rA and pc unchanged. -/
def Obligations.PopqLoadsRegister : Prop :=
  ∀ (ifun rB : Nybble) (rA : RegId) (s : State),
    encode defaultConfig (.popq 0 rA 0xF) = [0xB0, rA ++ 0xF#4] ∧
    ((s.readReg s.cfg.spIndex).toNat + 8 ≤ s.cfg.memSize →
      ∃ t v, exec (.popq ifun rA rB) s = .next t ∧
        s.readWord (s.readReg s.cfg.spIndex).toNat = some v ∧
        (rA ≠ s.cfg.spIndex → t.readReg rA = v ∧ t.readReg s.cfg.spIndex = s.readReg s.cfg.spIndex + 8) ∧
        (rA = s.cfg.spIndex → s.cfg.spOperandMode = .sequential → t.readReg rA = v + 8) ∧
        (rA = s.cfg.spIndex → s.cfg.spOperandMode = .y86 → t.readReg rA = v) ∧
        t.pc = s.pc + 2 ∧ (∀ r, r ≠ rA → r ≠ s.cfg.spIndex → t.readReg r = s.readReg r) ∧
        (∀ a, t.readByte a = s.readByte a) ∧ t.cc = s.cc ∧ t.status = s.status ∧ t.cfg = s.cfg) ∧
    (s.cfg.memSize < (s.readReg s.cfg.spIndex).toNat + 8 →
      exec (.popq ifun rA rB) s = .next { s with status := .badAddress })

/-- 46_stack.md, push then pop (the spec marks it derived): for every register and both settings of SP_OPERAND_MODE, popping the
register just pushed leaves every register as it was; a pop into another register than the stack pointer copies the pushed
register; memory differs in the pushed word alone. -/
def Obligations.PushThenPopRestores : Prop :=
  ∀ (f g x y : Nybble) (rA rC : RegId) (s t : State),
    s.wordInRange (s.readReg s.cfg.spIndex - 8).toNat → exec (.pushq f rA x) s = .next t →
    (∃ u, exec (.popq g rA y) t = .next u ∧ (∀ r, u.readReg r = s.readReg r) ∧
      (∀ a, a < (s.readReg s.cfg.spIndex - 8).toNat ∨ (s.readReg s.cfg.spIndex - 8).toNat + 8 ≤ a →
        u.readByte a = s.readByte a) ∧
      u.cc = s.cc ∧ u.status = s.status ∧ u.cfg = s.cfg ∧ u.pc = s.pc + 4) ∧
    (rA ≠ s.cfg.spIndex → rC ≠ s.cfg.spIndex →
      ∃ u, exec (.popq g rC y) t = .next u ∧ u.readReg rC = s.readReg rA ∧
        u.readReg s.cfg.spIndex = s.readReg s.cfg.spIndex)

/-! ### Footprints over the whole instruction set -/

/-- 10_state.md, which instructions write the registers (the spec marks the table derived): a register that differs after an
instruction is one its row of the table names. -/
def Obligations.RegisterWriteFootprint : Prop :=
  ∀ (i : Instr) (s t : State) (r : RegId), exec i s = .next t → t.readReg r ≠ s.readReg r →
    match i with
    | .rrmovq _ rB | .cmovle _ rB | .cmovl _ rB | .cmove _ rB | .cmovne _ rB | .cmovge _ rB | .cmovg _ rB => r = rB
    | .irmovq _ _ rB _ => r = rB
    | .mrmovq _ rA _ _ => r = rA
    | .addq _ rB | .subq _ rB | .andq _ rB | .xorq _ rB => r = rB
    | .call _ _ | .ret _ | .pushq _ _ _ => r = s.cfg.spIndex
    | .popq _ rA _ => r = rA ∨ r = s.cfg.spIndex
    | _ => False

/-- 20_memory.md, which instructions reach memory (the spec marks the table derived): a byte that differs after an instruction
lies in the word rmmovq writes at its effective address or pushq and call write at SP - 8. -/
def Obligations.MemoryWriteFootprint : Prop :=
  ∀ (i : Instr) (s t : State) (a : Nat), exec i s = .next t → t.readByte a ≠ s.readByte a →
    match i with
    | .rmmovq _ _ rB d => (s.dataAddress rB d).toNat ≤ a ∧ a < (s.dataAddress rB d).toNat + 8
    | .call _ _ | .pushq _ _ _ =>
      (s.readReg s.cfg.spIndex - 8).toNat ≤ a ∧ a < (s.readReg s.cfg.spIndex - 8).toNat + 8
    | _ => False

/-- 10_state.md, the value pc takes: an instruction that begins and ends with status OK and is no jump, call or ret moves pc by the
length of its own encoding, modulo 2^64 (decision D3); a jump moves it by its length or to its target. -/
def Obligations.PcMovesByTheEncodedLength : Prop :=
  ∀ (i : Instr) (s t : State), s.status = .ok → exec i s = .next t → t.status = .ok →
    match i with
    | .jmp d | .jle d | .jl d | .je d | .jne d | .jge d | .jg d =>
      t.pc = d ∨ t.pc = s.pc + BitVec.ofNat 64 (encode s.cfg i).length
    | .call _ d => t.pc = d
    | .ret _ => s.readWord (s.readReg s.cfg.spIndex).toNat = some t.pc
    | _ => t.pc = s.pc + BitVec.ofNat 64 (encode s.cfg i).length

/-- 30_encoding.md, unused fields (decision D13; log 17): the ifun of the nine classes that read none, rA of irmovq and the low
register nybble of pushq and popq change nothing an instruction does. -/
def Obligations.UnusedFieldsHaveNoEffect : Prop :=
  ∀ (f g x y : Nybble) (rA rB : RegId) (v : Word) (s : State),
    exec (.halt f) s = exec (.halt g) s ∧ exec (.nop f) s = exec (.nop g) s ∧ exec (.ret f) s = exec (.ret g) s ∧
    exec (.irmovq f x rB v) s = exec (.irmovq g y rB v) s ∧ exec (.rmmovq f rA rB v) s = exec (.rmmovq g rA rB v) s ∧
    exec (.mrmovq f rA rB v) s = exec (.mrmovq g rA rB v) s ∧ exec (.call f v) s = exec (.call g v) s ∧
    exec (.pushq f rA x) s = exec (.pushq g rA y) s ∧ exec (.popq f rA x) s = exec (.popq g rA y) s

/-! ### Encoding -/

/-- 30_encoding.md, decoding undoes encoding: under every ICODE_MAP and COND_MAP that are numberings (log 20), for every instruction
that is well-formed under the setting of STRICT_IFUN, with every operand at every value, whatever bytes follow. -/
def Obligations.DecodeEncodeRoundTrip : Prop :=
  ∀ (cfg : Config) (i : Instr) (rest : List Byte), cfg.mapsWf → i.wf cfg.strictIfun = true →
    decode cfg (encode cfg i ++ rest) = .ok (i, rest)

/-- 30_encoding.md, encoding undoes decoding: under the same maps (log 20), every byte sequence the decoder accepts is the
encoding of the well-formed instruction it gives, then the rest. No bit is dropped. -/
def Obligations.EncodeDecodeRoundTrip : Prop :=
  ∀ (cfg : Config) (bytes rest : List Byte) (i : Instr), cfg.mapsWf → decode cfg bytes = .ok (i, rest) →
    bytes = encode cfg i ++ rest ∧ i.wf cfg.strictIfun = true

/-- 00_scope.md's ICODE_MAP and COND_MAP (decisions D1, D2; logs 9, 20), with 30_encoding.md's opcode byte: the high nybble of the
first byte is the number ICODE_MAP gives the instruction's class; the low nybble of CMOVxx and Jxx is the number COND_MAP gives
the condition, that of OP1 the function code, and that of the other classes the ifun itself. The reserved rows have the nybbles
they are named after. -/
def Obligations.OpcodeByteFollowsTheMaps : Prop :=
  ∀ (cfg : Config) (i : Instr), cfg.mapsWf →
    ∃ (icode ifun : Nybble) (rest : List Byte), encode cfg i = (icode ++ ifun) :: rest ∧
      match i with
      | .halt f => cfg.icodeMap[icode.toNat]? = some .halt ∧ ifun = f
      | .nop f => cfg.icodeMap[icode.toNat]? = some .nop ∧ ifun = f
      | .rrmovq _ _ => cfg.icodeMap[icode.toNat]? = some .cmov ∧ cfg.condMap[ifun.toNat]? = some .always
      | .cmovle _ _ => cfg.icodeMap[icode.toNat]? = some .cmov ∧ cfg.condMap[ifun.toNat]? = some .le
      | .cmovl _ _ => cfg.icodeMap[icode.toNat]? = some .cmov ∧ cfg.condMap[ifun.toNat]? = some .lt
      | .cmove _ _ => cfg.icodeMap[icode.toNat]? = some .cmov ∧ cfg.condMap[ifun.toNat]? = some .eq
      | .cmovne _ _ => cfg.icodeMap[icode.toNat]? = some .cmov ∧ cfg.condMap[ifun.toNat]? = some .ne
      | .cmovge _ _ => cfg.icodeMap[icode.toNat]? = some .cmov ∧ cfg.condMap[ifun.toNat]? = some .ge
      | .cmovg _ _ => cfg.icodeMap[icode.toNat]? = some .cmov ∧ cfg.condMap[ifun.toNat]? = some .gt
      | .irmovq f _ _ _ => cfg.icodeMap[icode.toNat]? = some .irmovq ∧ ifun = f
      | .rmmovq f _ _ _ => cfg.icodeMap[icode.toNat]? = some .rmmovq ∧ ifun = f
      | .mrmovq f _ _ _ => cfg.icodeMap[icode.toNat]? = some .mrmovq ∧ ifun = f
      | .addq _ _ => cfg.icodeMap[icode.toNat]? = some .op1 ∧ ifun = 0
      | .subq _ _ => cfg.icodeMap[icode.toNat]? = some .op1 ∧ ifun = 1
      | .andq _ _ => cfg.icodeMap[icode.toNat]? = some .op1 ∧ ifun = 2
      | .xorq _ _ => cfg.icodeMap[icode.toNat]? = some .op1 ∧ ifun = 3
      | .jmp _ => cfg.icodeMap[icode.toNat]? = some .jxx ∧ cfg.condMap[ifun.toNat]? = some .always
      | .jle _ => cfg.icodeMap[icode.toNat]? = some .jxx ∧ cfg.condMap[ifun.toNat]? = some .le
      | .jl _ => cfg.icodeMap[icode.toNat]? = some .jxx ∧ cfg.condMap[ifun.toNat]? = some .lt
      | .je _ => cfg.icodeMap[icode.toNat]? = some .jxx ∧ cfg.condMap[ifun.toNat]? = some .eq
      | .jne _ => cfg.icodeMap[icode.toNat]? = some .jxx ∧ cfg.condMap[ifun.toNat]? = some .ne
      | .jge _ => cfg.icodeMap[icode.toNat]? = some .jxx ∧ cfg.condMap[ifun.toNat]? = some .ge
      | .jg _ => cfg.icodeMap[icode.toNat]? = some .jxx ∧ cfg.condMap[ifun.toNat]? = some .gt
      | .call f _ => cfg.icodeMap[icode.toNat]? = some .call ∧ ifun = f
      | .ret f => cfg.icodeMap[icode.toNat]? = some .ret ∧ ifun = f
      | .pushq f _ _ => cfg.icodeMap[icode.toNat]? = some .pushq ∧ ifun = f
      | .popq f _ _ => cfg.icodeMap[icode.toNat]? = some .popq ∧ ifun = f
      | .cmovUndef7 _ _ => cfg.icodeMap[icode.toNat]? = some .cmov ∧ ifun = 7
      | .cmovUndef8to15 low _ _ => cfg.icodeMap[icode.toNat]? = some .cmov ∧ ifun.toNat = 8 + low.toNat
      | .jxxUndef7 _ => cfg.icodeMap[icode.toNat]? = some .jxx ∧ ifun = 7
      | .jxxUndef8to15 low _ => cfg.icodeMap[icode.toNat]? = some .jxx ∧ ifun.toNat = 8 + low.toNat
      | .op1Undef4to7 low => cfg.icodeMap[icode.toNat]? = some .op1 ∧ ifun.toNat = 4 + low.toNat
      | .op1Undef8to15 low => cfg.icodeMap[icode.toNat]? = some .op1 ∧ ifun.toNat = 8 + low.toNat
      | .unknownIcode low f => icode.toNat = 12 + low.toNat ∧ ifun = f

/-- R70: the encoding of each of the 27 instructions is 1, 2, 9 or 10 bytes long, by its class, under any ICODE_MAP. -/
def Obligations.EncodingsHaveTheirFormatsLength : Prop :=
  ∀ (cfg : Config) (i : Instr),
    (i.mnemonic ∈ ["halt", "nop", "ret"] → (encode cfg i).length = 1) ∧
    (i.mnemonic ∈ ["rrmovq", "cmovle", "cmovl", "cmove", "cmovne", "cmovge", "cmovg", "addq", "subq", "andq", "xorq", "pushq",
      "popq"] → (encode cfg i).length = 2) ∧
    (i.mnemonic ∈ ["jmp", "jle", "jl", "je", "jne", "jge", "jg", "call"] → (encode cfg i).length = 9) ∧
    (i.mnemonic ∈ ["irmovq", "rmmovq", "mrmovq"] → (encode cfg i).length = 10)

/-- opcode_table.json and 30_encoding.md's table of all 256 opcode bytes (decisions D1, D2, D13, D14): every byte matches exactly one
row, and with every parameter at its default the decoder, given enough bytes, answers that row's instruction. -/
def Obligations.EveryOpcodeByteDecodesToItsRow : Prop :=
  ∀ (b : Byte) (rest : List Byte), 9 ≤ rest.length →
    ∃ row, opcodeRows.filter (fun r => b &&& r.mask == r.pattern) = [row] ∧
      ∃ i left, decode defaultConfig (b :: rest) = .ok (i, left) ∧ i.mnemonic = row.mnemonic

/-- Words written out from 30_encoding.md and 95_test_vectors.md (the numbers are decisions D1 and D2) decode to the instructions
they stand for: one of each family. -/
def Obligations.WrittenWordsDecode : Prop :=
  decode defaultConfig [0x00] = .ok (.halt 0, []) ∧
  decode defaultConfig [0x25, 0x35] = .ok (.cmovge 3 5, []) ∧
  decode defaultConfig [0x30, 0xF3, 0x2A, 0, 0, 0, 0, 0, 0, 0] = .ok (.irmovq 0 0xF 3 0x2A, []) ∧
  decode defaultConfig [0x50, 0x32, 0, 0, 0, 0, 0, 0, 0, 0] = .ok (.mrmovq 0 3 2 0, []) ∧
  decode defaultConfig [0x61, 0x12] = .ok (.subq 1 2, []) ∧
  decode defaultConfig [0x74, 0x16, 0, 0, 0, 0, 0, 0, 0] = .ok (.jne 0x16, []) ∧
  decode defaultConfig [0x80, 0x40, 0, 0, 0, 0, 0, 0, 0] = .ok (.call 0 0x40, []) ∧
  decode defaultConfig [0xB0, 0x7F] = .ok (.popq 0 7 0xF, [])

/-! ### The step -/

/-- 40_cycle.md, the step: with status OK, when the bytes from pc to the end of memory (at most ten) decode to an instruction, the
step is exec of that instruction. Step adds nothing around exec. -/
def Obligations.StepRunsTheDecodedInstruction : Prop :=
  ∀ (s : State) (i : Instr) (rest : List Byte), s.status = .ok →
    decode s.cfg s.codeBytes = .ok (i, rest) → step s = exec i s

/-- 40_cycle.md, the step on bytes that are no instruction (decision D15; logs 9, 14): bytes that run past memory are BAD_ADDRESS
with pc unchanged, a non-zero ifun refused by STRICT_IFUN is BAD_INSTRUCTION with pc + 1, and nothing else is written. -/
def Obligations.StepOnUndecodableBytes : Prop :=
  ∀ s : State, s.status = .ok →
    (decode s.cfg s.codeBytes = .error .truncated → step s = .next { s with status := .badAddress }) ∧
    (∀ c f, decode s.cfg s.codeBytes = .error (.nonzeroIfun c f) →
      step s = .next { s with status := .badInstruction, pc := s.pc + 1 })

/-- R101: a step in a terminal status changes nothing; so does any number of steps. -/
def Obligations.TerminalStatusIsFrozen : Prop :=
  ∀ (s : State), s.status ≠ .ok → step s = .next s ∧ ∀ k, Host.Core.run core k s = .next s

/-- 40_cycle.md, a pc outside memory (decision D15; log 14): BAD_ADDRESS with everything else unchanged. -/
def Obligations.PcOutOfRangeIsBadAddress : Prop :=
  ∀ s : State, s.status = .ok → s.cfg.memSize ≤ s.pc.toNat → step s = .next { s with status := .badAddress }

/-- 40_cycle.md, operand bytes outside memory (decision D15; log 14): an instruction that passes the class checks and whose bytes run
past the end of memory is BAD_ADDRESS with everything else unchanged, an undefined CMOVxx or Jxx selector included. The class of
the opcode byte is the one ICODE_MAP gives its icode (decision D1; log 9). -/
def Obligations.OperandBytesOutOfRangeAreBadAddress : Prop :=
  ∀ (s : State) (b : Byte) (length : Nat), s.status = .ok → s.readByte s.pc.toNat = some b →
    (length = 2 ∧ s.cfg.icodeMap[(b.extractLsb' 4 4).toNat]? ∈ [some .cmov, some .pushq, some .popq] ∨
      length = 2 ∧ s.cfg.icodeMap[(b.extractLsb' 4 4).toNat]? = some .op1 ∧ b.extractLsb' 0 4 ≤ 3 ∨
      length = 9 ∧ s.cfg.icodeMap[(b.extractLsb' 4 4).toNat]? ∈ [some .jxx, some .call] ∨
      length = 10 ∧ s.cfg.icodeMap[(b.extractLsb' 4 4).toNat]? ∈ [some .irmovq, some .rmmovq, some .mrmovq]) →
    (s.cfg.strictIfun = true → s.cfg.icodeMap[(b.extractLsb' 4 4).toNat]? ∉ [some .cmov, some .op1, some .jxx] →
      b.extractLsb' 0 4 = 0) →
    s.cfg.memSize < s.pc.toNat + length → step s = .next { s with status := .badAddress }

/-- 30_encoding.md R80: a step at an opcode byte of an unrecognised icode sets BAD_INSTRUCTION and pc + 1 and changes nothing else;
no byte after it is needed, so it is so at the last byte of memory too. That 0xC to 0xF are unrecognised under every ICODE_MAP is
deduced (log 20). -/
def Obligations.UnrecognisedIcodeIsBadInstruction : Prop :=
  ∀ (s : State) (b : Byte), s.status = .ok → s.readByte s.pc.toNat = some b → 0xC ≤ b.extractLsb' 4 4 →
    step s = .next { s with status := .badInstruction, pc := s.pc + 1 }

/-- 30_encoding.md, OP1 with ifun 4 to 15, the bytes 0x64 to 0x6F at the default ICODE_MAP (decisions D1, D14; logs 9, 18): treated
exactly as an unrecognised icode. -/
def Obligations.UndefinedOp1FunctionIsBadInstruction : Prop :=
  ∀ (s : State) (b : Byte), s.status = .ok → s.readByte s.pc.toNat = some b →
    s.cfg.icodeMap[(b.extractLsb' 4 4).toNat]? = some .op1 → 4 ≤ b.extractLsb' 0 4 →
    step s = .next { s with status := .badInstruction, pc := s.pc + 1 }

/-- 30_encoding.md, STRICT_IFUN (decision D13; log 9): with it, a non-zero ifun in a class that reads none is treated as an
unrecognised icode. -/
def Obligations.StrictIfunRefusesNonzeroIfun : Prop :=
  ∀ (s : State) (b : Byte), s.status = .ok → s.cfg.strictIfun = true → s.readByte s.pc.toNat = some b →
    s.cfg.icodeMap[(b.extractLsb' 4 4).toNat]? ∈ [some .halt, some .nop, some .irmovq, some .rmmovq, some .mrmovq, some .call,
      some .ret, some .pushq, some .popq] → b.extractLsb' 0 4 ≠ 0 →
    step s = .next { s with status := .badInstruction, pc := s.pc + 1 }

/-- 60_exceptions.md, BAD_INSTRUCTION (that the OP1 rows raise it is decision D14; log 18): the rows that are no instruction set the
status, advance pc by 1 and write no register, memory byte or flag. -/
def Obligations.ReservedRowsRaiseBadInstruction : Prop :=
  ∀ (l2 : BitVec 2) (l3 : BitVec 3) (f : Nybble) (s : State) (i : Instr),
    i = .op1Undef4to7 l2 ∨ i = .op1Undef8to15 l3 ∨ i = .unknownIcode l2 f →
    ∃ t, exec i s = .next t ∧ t = { s with status := .badInstruction, pc := s.pc + 1 }

/-- 41_condition_codes.md and 60_exceptions.md (decisions D15, D16, D17; logs 14, 15): a step aborts exactly when, in status OK, the
opcode byte at pc is a CMOVxx or Jxx with a selector from 7 to 15 and all its bytes are in memory; the abort carries pc and the
selector. That 7 to 15 are the undefined selectors under every COND_MAP is deduced (log 20). -/
def Obligations.FatalAbortExactlyOnUndefinedSelectors : Prop :=
  ∀ (s : State) (p : Word) (sel : Nybble),
    step s = .fault (.fatalAbort p sel) ↔
      s.status = .ok ∧ p = s.pc ∧ 7 ≤ sel ∧ ∃ b, s.readByte s.pc.toNat = some b ∧ b.extractLsb' 0 4 = sel ∧
        (s.cfg.icodeMap[(b.extractLsb' 4 4).toNat]? = some .cmov ∧ s.pc.toNat + 2 ≤ s.cfg.memSize ∨
         s.cfg.icodeMap[(b.extractLsb' 4 4).toNat]? = some .jxx ∧ s.pc.toNat + 9 ≤ s.cfg.memSize)

/-- 40_cycle.md, the two outcomes of a step: a new state, or the fatal abort. No step is refused. -/
def Obligations.EveryStepGivesAStateOrAborts : Prop :=
  ∀ s : State, (∃ t, step s = .next t) ∨ ∃ p sel, step s = .fault (.fatalAbort p sel)

/-- 40_cycle.md, what a step that ends in a terminal status writes (decision D15; log 14): the status, and pc + 1 for
BAD_INSTRUCTION, and nothing else. -/
def Obligations.TerminalStepsWriteOnlyStatus : Prop :=
  ∀ s t : State, s.status = .ok → step s = .next t →
    (t.status = .halted → t = { s with status := .halted }) ∧
    (t.status = .badAddress → t = { s with status := .badAddress }) ∧
    (t.status = .badInstruction → t = { s with status := .badInstruction, pc := s.pc + 1 })

/-- 60_exceptions.md, the causes of HALTED and BAD_INSTRUCTION (decisions D13, D14; logs 9, 18): HALTED exactly from a halt
opcode byte, BAD_INSTRUCTION exactly from an illegal opcode byte. That 0xC to 0xF, and no other icodes, have no class under every
ICODE_MAP is deduced (log 20). -/
def Obligations.CausesOfHaltedAndBadInstruction : Prop :=
  ∀ s t : State, s.status = .ok → step s = .next t →
    (t.status = .halted ↔ ∃ b, s.readByte s.pc.toNat = some b ∧ s.cfg.icodeMap[(b.extractLsb' 4 4).toNat]? = some .halt ∧
      (s.cfg.strictIfun = true → b.extractLsb' 0 4 = 0)) ∧
    (t.status = .badInstruction ↔ ∃ b, s.readByte s.pc.toNat = some b ∧
      (0xC ≤ b.extractLsb' 4 4 ∨ s.cfg.icodeMap[(b.extractLsb' 4 4).toNat]? = some .op1 ∧ 4 ≤ b.extractLsb' 0 4 ∨
        s.cfg.strictIfun = true ∧ b.extractLsb' 0 4 ≠ 0 ∧
          s.cfg.icodeMap[(b.extractLsb' 4 4).toNat]? ∉ [some .cmov, some .op1, some .jxx]))

/-- The invariant (20_memory.md: the memory size bound; the maps are numberings, log 20; every listed byte inside memory; and the
memory list's canonical form, log 6) is kept by every step from every state that has it. -/
def Obligations.StepKeepsInvariant : Prop :=
  ∀ s t : State, s.Inv → step s = .next t → t.Inv

/-- The invariant (logs 6, 20) holds at reset (logs 2, 6), and at every launch whose parameters and memory have it. -/
def Obligations.InvariantHoldsAtLaunch : Prop :=
  State.reset.Inv ∧
  ∀ (cfg : Config) (cc : Flags) (regs : Vector Word 16) (mem : Memory),
    cfg.wf → mem.wf → (∀ c ∈ mem, c.1 < cfg.memSize) → (State.launch cfg cc regs mem).Inv

/-- 00_scope.md, the parameters are fixed for the machine: no step changes one. -/
def Obligations.ParametersNeverChange : Prop :=
  ∀ s t : State, step s = .next t → t.cfg = s.cfg

/-- 40_cycle.md and 60_exceptions.md, the end of a run (decision D17): a run that ends well at HALTED never faults, however many
steps the host asks for. -/
def Obligations.RunsThatEndWellNeverFault : Prop :=
  ∀ s : State, EndsWell s → ¬ Faults s

/-- Loading (70_reset_and_hazards.md; log 7): an instruction word placed at pc, in range, is what the next step runs. -/
def Obligations.PlacedInstructionRunsNext : Prop :=
  ∀ (s : State) (nbits w : Nat) (i : Instr) (rest : List Byte), s.pc.toNat + 10 ≤ s.cfg.memSize →
    decode s.cfg (tableBytes nbits w) = .ok (i, rest) →
    step (s.withFetchWord nbits w) = exec i (s.withFetchWord nbits w)

/-! ### Memory -/

/-- 20_memory.md, byte order and mixed widths (decision D4; log 10): after a word is written its bytes read back least significant
first and every other byte is as before; a word read is made of the bytes at its addresses; a word read where one was written
gives it back. -/
def Obligations.WordsAreLittleEndianBytes : Prop :=
  ∀ (s t : State) (a : Nat) (w : Word),
    (s.writeWord a w = some t →
      (∀ k, k < 8 → t.readByte (a + k) = some (w.extractLsb' (8 * k) 8)) ∧
      (∀ x, x < a ∨ a + 8 ≤ x → t.readByte x = s.readByte x) ∧ t.readWord a = some w) ∧
    (s.readWord a = some w → ∀ k, k < 8 → s.readByte (a + k) = some (w.extractLsb' (8 * k) 8))

/-- 20_memory.md, ranges (decision D5; log 10): a byte access succeeds exactly below MEM_SIZE, a word access exactly when all eight
bytes are; none wraps and none is partial. -/
def Obligations.AccessesSucceedExactlyInRange : Prop :=
  ∀ (s : State) (a : Nat) (b : Byte) (w : Word),
    ((s.readByte a).isSome ↔ a < s.cfg.memSize) ∧ ((s.writeByte a b).isSome ↔ a < s.cfg.memSize) ∧
    ((s.readWord a).isSome ↔ ∀ k, k < 8 → (s.readByte (a + k)).isSome) ∧
    ((s.writeWord a w).isSome ↔ a + 8 ≤ s.cfg.memSize)

/-- Two memories in canonical form that read alike at every address are one list, so that equal memories are equal data (log 6). -/
def Obligations.CanonicalMemoriesThatReadAlikeAreEqual : Prop :=
  ∀ m n : Memory, m.wf → n.wf → (∀ a, m.read a = n.read a) → m = n

/-- 20_memory.md, self-modifying code (the spec marks it derived): a store by rmmovq at the address of the next instruction is
what the next fetch reads. -/
def Obligations.StoreIsSeenByTheNextFetch : Prop :=
  ∀ (f : Nybble) (rA rB : RegId) (d : Word) (s t : State) (i : Instr) (rest : List Byte), s.status = .ok →
    exec (.rmmovq f rA rB d) s = .next t → t.status = .ok → s.dataAddress rB d = s.pc + 10 →
    decode s.cfg (wordBytes (s.readReg rA)) = .ok (i, rest) → step t = exec i t

/-! ### Reset and the host port -/

/-- 10_state.md, reset (decision D20; log 3): whatever the parameters and the launch inputs, pc is ENTRY and status is OK, and the
launch inputs are as given. -/
def Obligations.LaunchStartsAtEntryWithStatusOk : Prop :=
  ∀ (cfg : Config) (cc : Flags) (regs : Vector Word 16) (mem : Memory) (r : RegId),
    (State.launch cfg cc regs mem).pc = cfg.entry ∧ (State.launch cfg cc regs mem).status = .ok ∧
    (State.launch cfg cc regs mem).cc = cc ∧ (State.launch cfg cc regs mem).readReg r = regs[r.toNat]'r.isLt ∧
    ∀ a, a < cfg.memSize → (State.launch cfg cc regs mem).readByte a = some (mem.read a)

/-- The values State.reset takes. Zero registers, flags and memory bytes and MEM_SIZE = 2^64 are the model's choice (logs 2, 4, 5,
6); ENTRY, SP_INDEX, the three switches and the two maps are the spec's defaults (decisions D1, D2, D7, D11, D12, D13, D20). -/
def Obligations.ResetTakesTheNamedValues : Prop :=
  State.reset.pc = 0 ∧ State.reset.status = .ok ∧ State.reset.cc = ⟨false, false, false⟩ ∧
  (∀ r, State.reset.readReg r = 0) ∧ (∀ a, a < 2 ^ 64 → State.reset.readByte a = some 0) ∧
  State.reset.cfg = ⟨2 ^ 64, 0, 4, false, .sequential, false,
    #v[.halt, .nop, .cmov, .irmovq, .rmmovq, .mrmovq, .op1, .jxx, .call, .ret, .pushq, .popq],
    #v[.always, .le, .lt, .eq, .ne, .ge, .gt]⟩

/-- 10_state.md, the host port (decisions D18, D19; log 16): the status numbers, a refused number, the packing of the flags, and that
a written flag byte reads back with bits 7:3 zero. -/
def Obligations.HostPortNumbersAndPacking : Prop :=
  ∀ (s : State) (n : Nat) (b : Byte) (address : Word),
    (n = 1 ∨ n = 2 ∨ n = 3 ∨ n = 4 → ∃ t, s.writeStatus n = .next t ∧ t.readStatus = n ∧ t = { s with status := t.status }) ∧
    (n = 0 ∨ 4 < n → s.writeStatus n = .refused (.badStatusNumber n)) ∧
    (s.readStatus = 1 ↔ s.status = .ok) ∧ (s.readStatus = 2 ↔ s.status = .halted) ∧
    (s.readStatus = 3 ↔ s.status = .badAddress) ∧ (s.readStatus = 4 ↔ s.status = .badInstruction) ∧
    s.readConditionCodes.toNat = 4 * s.cc.z.toNat + 2 * s.cc.s.toNat + s.cc.o.toNat ∧
    (s.writeConditionCodes b).readConditionCodes = b &&& 7 ∧
    s.writeConditionCodes s.readConditionCodes = s ∧
    (s.writePC address).readPC = address ∧ s.writePC address = { s with pc := address }
end

