-- ==== Sys2Proof/Laws/Decode.lean ====
section
/-! SUPPORT. The small facts of decoding and encoding: bit fields, the tables read in both directions, operand bytes. -/

namespace Sys2Proof

@[simp] theorem wordBytes_length (w : Word) : (wordBytes w).length = 8 := rfl

theorem wordBytes_getElem (w : Word) (k : Nat) (h : k < 8) : (wordBytes w)[k]'(by simpa using h) = byteOf w k := by
  match k, h with
  | 0, _ | 1, _ | 2, _ | 3, _ | 4, _ | 5, _ | 6, _ | 7, _ => rfl

/-- The bytes of a word put together again are the word (20_memory.md R54). -/
@[simp] theorem wordOfBytes_byteOf (w : Word) :
    wordOfBytes (byteOf w 0) (byteOf w 1) (byteOf w 2) (byteOf w 3) (byteOf w 4) (byteOf w 5) (byteOf w 6) (byteOf w 7) = w := by
  apply BitVec.eq_of_getLsbD_eq
  intro i hi
  simp only [wordOfBytes, byteOf, BitVec.getLsbD_append, BitVec.getLsbD_extractLsb']
  repeat' split
  all_goals
    rw [show ∀ p q : Bool, p = true → (p && q) = q from fun p q h => by simp [h]]
    · congr 1; omega
    · simp; omega

/-- Byte k of a word made of eight bytes is byte k of the eight. -/
theorem wordBytes_wordOfBytes (b0 b1 b2 b3 b4 b5 b6 b7 : Byte) :
    wordBytes (wordOfBytes b0 b1 b2 b3 b4 b5 b6 b7) = [b0, b1, b2, b3, b4, b5, b6, b7] := by
  simp only [wordBytes, List.cons.injEq, and_true]
  refine ⟨?_, ?_, ?_, ?_, ?_, ?_, ?_, ?_⟩ <;>
  · apply BitVec.eq_of_getLsbD_eq
    intro i hi
    simp only [wordOfBytes, byteOf, BitVec.getLsbD_append, BitVec.getLsbD_extractLsb', hi, decide_true, Bool.true_and]
    repeat' split
    all_goals first | (exfalso; omega) | (congr 1; omega)

@[simp] theorem nybble_one_byteOfNybbles (hi lo : Nybble) : nybble (byteOfNybbles hi lo) 1 = hi := by
  revert hi lo; decide

@[simp] theorem nybble_zero_byteOfNybbles (hi lo : Nybble) : nybble (byteOfNybbles hi lo) 0 = lo := by
  revert hi lo; decide

/-- A byte is its two nybbles (R71). -/
theorem byteOfNybbles_nybble (b : Byte) : byteOfNybbles (nybble b 1) (nybble b 0) = b := by revert b; decide

/-- A number under a map is the entry's place: the first place of an entry the map lists holds that entry. -/
theorem getElem?_idxOf_toNat {α : Type} [DecidableEq α] {n : Nat} (hn : n ≤ 15) (m : Vector α n) {a : α} (h : a ∈ m.toList) :
    m[(BitVec.ofNat 4 (m.toList.idxOf a)).toNat]? = some a := by
  have hlt : m.toList.idxOf a < n := by simpa using List.idxOf_lt_length_of_mem h
  have ht : (BitVec.ofNat 4 (m.toList.idxOf a)).toNat = m.toList.idxOf a := by
    rw [BitVec.toNat_ofNat]; exact Nat.mod_eq_of_lt (by omega)
  rw [ht, Vector.getElem?_eq_getElem hlt]
  rw [← Vector.getElem_toList (by simpa using hlt)]
  exact congrArg some (List.getElem_idxOf (by simpa using hlt))

/-- In a map without repeats, the number of the entry at a place is that place. -/
theorem ofNat_idxOf_of_getElem? {α : Type} [DecidableEq α] {n : Nat} {m : Vector α n} (hd : m.toList.Nodup) {k : Nybble} {a : α}
    (h : m[k.toNat]? = some a) : BitVec.ofNat 4 (m.toList.idxOf a) = k := by
  obtain ⟨hlt, rfl⟩ := Vector.getElem?_eq_some_iff.1 h
  have hlt' : k.toNat < m.toList.length := by simpa using hlt
  have := hd.idxOf_getElem k.toNat hlt'
  rw [Vector.getElem_toList] at this
  rw [this]; simp

/-- The icodes without a class are 0xC to 0xF (R75, R80). -/
theorem classOf_none_iff (cfg : Config) (icode : Nybble) : classOf cfg icode = none ↔ 12 ≤ icode := by
  simp [classOf, BitVec.le_def]

/-- The selectors without a condition are 7 to 15 (R134). -/
theorem condOf_none_iff (cfg : Config) (sel : Nybble) : condOf cfg sel = none ↔ 7 ≤ sel := by
  simp [condOf, BitVec.le_def]

/-- `ICODE_MAP` lists every class, so its icode names it (R75). -/
theorem classOf_icodeOf {cfg : Config} (h : cfg.mapsWf) (c : IClass) : classOf cfg (icodeOf cfg c) = some c :=
  getElem?_idxOf_toNat (by decide) _ (h.1.mem_iff.2 (by cases c <;> decide))

/-- An icode is the one its class has (R75). -/
theorem icodeOf_of_classOf {cfg : Config} (h : cfg.mapsWf) {icode : Nybble} {c : IClass} (hc : classOf cfg icode = some c) :
    icodeOf cfg c = icode :=
  ofNat_idxOf_of_getElem? (h.1.nodup_iff.2 (by decide)) hc

/-- `COND_MAP` lists every condition, so its selector names it (R134). -/
theorem condOf_selOf {cfg : Config} (h : cfg.mapsWf) (c : Cond) : condOf cfg (selOf cfg c) = some c :=
  getElem?_idxOf_toNat (by decide) _ (h.2.1.mem_iff.2 (by cases c <;> decide))

/-- A selector is the one its condition has (R134). -/
theorem selOf_of_condOf {cfg : Config} (h : cfg.mapsWf) {sel : Nybble} {c : Cond} (hc : condOf cfg sel = some c) :
    selOf cfg c = sel :=
  ofNat_idxOf_of_getElem? (h.2.1.nodup_iff.2 (by decide)) hc

/-- The OP1 functions without a meaning are 4 to 15 (R76). -/
theorem aluFnOf_none_iff (ifun : Nybble) : aluFnOf ifun = none ↔ 4 ≤ ifun := by revert ifun; decide

@[simp] theorem aluFnOf_ifunOf (f : AluFn) : aluFnOf (ifunOf f) = some f := by cases f <;> rfl

theorem ifunOf_of_aluFnOf {ifun : Nybble} {f : AluFn} (h : aluFnOf ifun = some f) : ifunOf f = ifun := by
  revert ifun f; decide

@[simp] theorem condOf_seven (cfg : Config) : condOf cfg 7 = none := (condOf_none_iff cfg 7).2 (by decide)

@[simp] theorem condOf_eightPlus (cfg : Config) (low : BitVec 3) : condOf cfg (eightPlus low) = none :=
  (condOf_none_iff cfg _).2 (by revert low; decide)

/-- The class checks, on an opcode byte made of its two nybbles (R106). -/
theorem decodeOpcode_byteOfNybbles (cfg : Config) (icode ifun : Nybble) :
    decodeOpcode cfg (byteOfNybbles icode ifun) =
      match classOf cfg icode with
      | none => .whole (.unknownIcode (icode.extractLsb' 0 2) ifun)
      | some cls =>
        if cls = .op1 ∧ 3 < ifun then .whole (undefinedOp1 ifun)
        else if cfg.strictIfun ∧ cls.readsIfun = false ∧ ifun ≠ 0 then .rejected (.nonzeroIfun icode ifun)
        else .operands cls ifun := by
  have h1 := nybble_one_byteOfNybbles icode ifun
  have h0 := nybble_zero_byteOfNybbles icode ifun
  unfold decodeOpcode
  generalize byteOfNybbles icode ifun = b at h1 h0 ⊢
  subst h1 h0
  rfl

/-- The word at the head of a byte list is read back from its own bytes (R74). -/
@[simp] theorem takeWord_wordBytes (w : Word) (rest : List Byte) : takeWord (wordBytes w ++ rest) = some (w, rest) := by
  simp [wordBytes, takeWord]

/-- A word read off a byte list is the bytes it was read from. -/
theorem takeWord_some {bs rest : List Byte} {w : Word} (h : takeWord bs = some (w, rest)) : bs = wordBytes w ++ rest := by
  unfold takeWord at h
  split at h
  · simp only [Option.some.injEq, Prod.mk.injEq] at h
    obtain ⟨rfl, rfl⟩ := h
    rw [wordBytes_wordOfBytes]; rfl
  · cases h

/-- Too few bytes for a word. -/
theorem takeWord_none {bs : List Byte} (h : bs.length < 8) : takeWord bs = none := by
  unfold takeWord
  split
  · simp only [List.length_cons] at h; omega
  · rfl

/-- The reserved rows of OP1 carry the whole ifun (R81). -/
theorem encode_undefinedOp1 (cfg : Config) (ifun : Nybble) (h : 3 < ifun) :
    encode cfg (undefinedOp1 ifun) = [byteOfNybbles (icodeOf cfg .op1) ifun] := by
  have : ∀ f : Nybble, 3 < f →
      f < 8 ∧ fourPlus (f.extractLsb' 0 2) = f ∨ ¬ f < 8 ∧ eightPlus (f.extractLsb' 0 3) = f := by decide
  unfold undefinedOp1
  rcases this ifun h with ⟨h8, he⟩ | ⟨h8, he⟩
  · rw [if_pos h8]; simp only [encode, encodeF1, he]
  · rw [if_neg h8]; simp only [encode, encodeF1, he]

end Sys2Proof
end

