-- ==== Sys2Proof/Laws/Memory.lean ====
section
/-! SUPPORT. Memory: what a byte reads as after each write, that every operation keeps the canonical form and the bound, and that a
canonical memory is determined by its bytes. -/

namespace Sys2Proof.Machine

theorem Memory.read_list (m : Memory) (a : Nat) (b : Byte) (x : Nat) :
    (Memory.list m a b).read x = if x = a then b else m.read x := by
  induction m with
  | nil => simp [Memory.list, Memory.read, eq_comm]
  | cons c m ih =>
    simp only [Memory.list]
    split
    · simp [Memory.read, eq_comm]
    · split
      · rename_i h; subst h
        simp only [Memory.read]
        by_cases hx : x = c.1
        · simp [hx]
        · simp [hx, Ne.symm hx]
      · rename_i h
        simp only [Memory.read, ih]
        by_cases hx : x = a
        · subst hx; simp [Ne.symm h]
        · simp [hx]

theorem Memory.read_filter_ne (m : Memory) (a x : Nat) :
    Memory.read (m.filter (fun c => c.1 ≠ a)) x = if x = a then unlistedByte else m.read x := by
  induction m with
  | nil => simp [Memory.read]
  | cons c m ih =>
    by_cases hc : c.1 = a
    · by_cases hx : x = a
      · simp_all
      · have : ¬ c.1 = x := fun e => hx (e ▸ hc)
        simp_all [Memory.read]
    · by_cases hx : x = a
      · subst hx; simp_all [Memory.read]
      · simp_all [Memory.read]

/-- A byte read after a byte write (20_memory.md R62). -/
theorem Memory.read_write (m : Memory) (a : Nat) (b : Byte) (x : Nat) :
    (m.write a b).read x = if x = a then b else m.read x := by
  unfold Memory.write
  split
  · rename_i h; rw [Memory.read_filter_ne, h]
  · exact Memory.read_list m a b x

@[simp] theorem Memory.read_write_same (m : Memory) (a : Nat) (b : Byte) : (m.write a b).read a = b := by
  simp [Memory.read_write]

@[simp] theorem Memory.read_write_ne (m : Memory) (a : Nat) (b : Byte) (x : Nat) (h : x ≠ a) :
    (m.write a b).read x = m.read x := by simp [Memory.read_write, h]

/-- A byte outside the written bytes reads as before. -/
theorem Memory.read_writeBytes_outside (bs : List Byte) (m : Memory) (a x : Nat) (h : x < a ∨ a + bs.length ≤ x) :
    (m.writeBytes a bs).read x = m.read x := by
  induction bs generalizing m a with
  | nil => rfl
  | cons b bs ih =>
    simp only [List.length_cons] at h
    rw [Memory.writeBytes, ih _ _ (by omega), Memory.read_write_ne _ _ _ _ (by omega)]

/-- A written byte reads as written. -/
theorem Memory.read_writeBytes_inside (bs : List Byte) (m : Memory) (a k : Nat) (h : k < bs.length) :
    (m.writeBytes a bs).read (a + k) = bs[k] := by
  induction bs generalizing m a k with
  | nil => simp at h
  | cons b bs ih =>
    rw [Memory.writeBytes]
    cases k with
    | zero => rw [Memory.read_writeBytes_outside _ _ _ _ (by omega)]; simp
    | succ k =>
      rw [show a + (k + 1) = a + 1 + k by omega, ih _ _ _ (by simpa using h)]
      simp

/-! ### The canonical form -/

theorem Memory.mem_list {m : Memory} {a : Nat} {b : Byte} {c : Host.Cell} (h : c ∈ Memory.list m a b) : c = (a, b) ∨ c ∈ m := by
  induction m with
  | nil => simpa [Memory.list] using h
  | cons d m ih =>
    simp only [Memory.list] at h
    split at h
    · simpa using h
    · split at h
      · rcases List.mem_cons.1 h with h | h
        · exact .inl h
        · exact .inr (List.mem_cons_of_mem _ h)
      · rcases List.mem_cons.1 h with h | h
        · exact .inr (h ▸ List.mem_cons_self)
        · exact (ih h).imp_right (List.mem_cons_of_mem _)

theorem Memory.mem_write {m : Memory} {a : Nat} {b : Byte} {c : Host.Cell} (h : c ∈ m.write a b) : c = (a, b) ∨ c ∈ m := by
  unfold Memory.write at h
  split at h
  · exact .inr (List.mem_filter.1 h).1
  · exact Memory.mem_list h

theorem Memory.list_pairwise {m : Memory} (a : Nat) (b : Byte) (h : m.Pairwise (fun c d => c.1 < d.1)) :
    (Memory.list m a b).Pairwise (fun c d => c.1 < d.1) := by
  induction m with
  | nil => simp [Memory.list]
  | cons c m ih =>
    have hc := (List.pairwise_cons.1 h).1
    have hm := (List.pairwise_cons.1 h).2
    simp only [Memory.list]
    split
    · rename_i hlt
      refine List.pairwise_cons.2 ⟨fun d hd => ?_, h⟩
      rcases List.mem_cons.1 hd with rfl | hd
      · exact hlt
      · exact lt_trans hlt (hc d hd)
    · split
      · rename_i heq
        exact List.pairwise_cons.2 ⟨fun d hd => heq ▸ hc d hd, hm⟩
      · refine List.pairwise_cons.2 ⟨fun d hd => ?_, ih hm⟩
        rcases Memory.mem_list hd with rfl | hd
        · dsimp only; omega
        · exact hc d hd

/-- A byte write keeps the canonical form. -/
theorem Memory.wf_write {m : Memory} (a : Nat) (b : Byte) (h : m.wf) : (m.write a b).wf := by
  refine ⟨?_, fun c hc => ?_⟩
  · unfold Memory.write
    split
    · exact h.1.filter _
    · exact Memory.list_pairwise a b h.1
  · unfold Memory.write at hc
    split at hc
    · exact h.2 c (List.mem_filter.1 hc).1
    · rename_i hb
      rcases Memory.mem_list hc with rfl | hc
      · exact hb
      · exact h.2 c hc

/-- A write of bytes keeps the canonical form. -/
theorem Memory.wf_writeBytes (bs : List Byte) {m : Memory} (a : Nat) (h : m.wf) : (m.writeBytes a bs).wf := by
  induction bs generalizing m a with
  | nil => exact h
  | cons b bs ih => exact ih _ (Memory.wf_write a b h)

/-- A write of bytes below a bound keeps every listed address below it. -/
theorem Memory.writeBytes_bounded (bs : List Byte) {m : Memory} {a n : Nat} (hm : ∀ c ∈ m, c.1 < n) (ha : a + bs.length ≤ n) :
    ∀ c ∈ m.writeBytes a bs, c.1 < n := by
  induction bs generalizing m a with
  | nil => exact hm
  | cons b bs ih =>
    simp only [List.length_cons] at ha
    refine ih (fun c hc => ?_) (by omega)
    rcases Memory.mem_write hc with rfl | hc
    · dsimp only; omega
    · exact hm c hc

theorem Memory.read_eq_of_mem {m : Memory} (h : m.Pairwise (fun c d => c.1 < d.1)) {c : Host.Cell} (hc : c ∈ m) : m.read c.1 = c.2 := by
  induction m with
  | nil => simp at hc
  | cons d m ih =>
    have hd := List.pairwise_cons.1 h
    rcases List.mem_cons.1 hc with rfl | hc
    · simp [Memory.read]
    · have := hd.1 c hc
      simp [Memory.read, Nat.ne_of_lt this, ih hd.2 hc]

theorem Memory.read_unlisted {m : Memory} {x : Nat} (h : ∀ c ∈ m, c.1 ≠ x) : m.read x = unlistedByte := by
  induction m with
  | nil => rfl
  | cons d m ih =>
    simp [Memory.read, h d List.mem_cons_self, ih (fun c hc => h c (List.mem_cons_of_mem _ hc))]

/-! ### Words -/

/-- A word read where that word was written gives it back, whatever lay there (20_memory.md R55, R62). -/
theorem Memory.readWord_writeBytes (m : Memory) (a : Nat) (w : Word) : (m.writeBytes a (wordBytes w)).readWord a = w := by
  have h : ∀ k (hk : k < 8), (m.writeBytes a (wordBytes w)).read (a + k) = byteOf w k := fun k hk => by
    rw [Memory.read_writeBytes_inside _ _ _ k (by simpa using hk), wordBytes_getElem w k hk]
  have h0 := h 0 (by omega)
  rw [Nat.add_zero] at h0
  simp only [Memory.readWord, h0, h 1 (by omega), h 2 (by omega), h 3 (by omega), h 4 (by omega), h 5 (by omega), h 6 (by omega),
    h 7 (by omega), wordOfBytes_byteOf]

end Sys2Proof.Machine
end

