-- ==== Sys2Proof/Laws/State.lean ====
section
/-! SUPPORT. What each update of State does to each field and to each register, so that no proof unfolds a record update. -/

namespace Sys2Proof.Machine

@[simp] theorem State.setPc_cfg (s : State) (v : Word) : (s.setPc v).cfg = s.cfg := rfl
@[simp] theorem State.setPc_pc (s : State) (v : Word) : (s.setPc v).pc = v := rfl
@[simp] theorem State.setPc_status (s : State) (v : Word) : (s.setPc v).status = s.status := rfl
@[simp] theorem State.setPc_cc (s : State) (v : Word) : (s.setPc v).cc = s.cc := rfl
@[simp] theorem State.setPc_regs (s : State) (v : Word) : (s.setPc v).regs = s.regs := rfl
@[simp] theorem State.setPc_mem (s : State) (v : Word) : (s.setPc v).mem = s.mem := rfl

@[simp] theorem State.setStatus_cfg (s : State) (v : Status) : (s.setStatus v).cfg = s.cfg := rfl
@[simp] theorem State.setStatus_pc (s : State) (v : Status) : (s.setStatus v).pc = s.pc := rfl
@[simp] theorem State.setStatus_status (s : State) (v : Status) : (s.setStatus v).status = v := rfl
@[simp] theorem State.setStatus_cc (s : State) (v : Status) : (s.setStatus v).cc = s.cc := rfl
@[simp] theorem State.setStatus_regs (s : State) (v : Status) : (s.setStatus v).regs = s.regs := rfl
@[simp] theorem State.setStatus_mem (s : State) (v : Status) : (s.setStatus v).mem = s.mem := rfl

@[simp] theorem State.writeFlags_cfg (s : State) (v : Flags) : (s.writeFlags v).cfg = s.cfg := rfl
@[simp] theorem State.writeFlags_pc (s : State) (v : Flags) : (s.writeFlags v).pc = s.pc := rfl
@[simp] theorem State.writeFlags_status (s : State) (v : Flags) : (s.writeFlags v).status = s.status := rfl
@[simp] theorem State.writeFlags_cc (s : State) (v : Flags) : (s.writeFlags v).cc = v := rfl
@[simp] theorem State.writeFlags_regs (s : State) (v : Flags) : (s.writeFlags v).regs = s.regs := rfl
@[simp] theorem State.writeFlags_mem (s : State) (v : Flags) : (s.writeFlags v).mem = s.mem := rfl

@[simp] theorem State.writeReg_cfg (s : State) (i : RegId) (v : Word) : (s.writeReg i v).cfg = s.cfg := rfl
@[simp] theorem State.writeReg_pc (s : State) (i : RegId) (v : Word) : (s.writeReg i v).pc = s.pc := rfl
@[simp] theorem State.writeReg_status (s : State) (i : RegId) (v : Word) : (s.writeReg i v).status = s.status := rfl
@[simp] theorem State.writeReg_cc (s : State) (i : RegId) (v : Word) : (s.writeReg i v).cc = s.cc := rfl
@[simp] theorem State.writeReg_regs (s : State) (i : RegId) (v : Word) : (s.writeReg i v).regs = s.regs.set i.toNat v i.isLt := rfl
@[simp] theorem State.writeReg_mem (s : State) (i : RegId) (v : Word) : (s.writeReg i v).mem = s.mem := rfl

@[simp] theorem State.writeSp_cfg (s : State) (v : Word) : (s.writeSp v).cfg = s.cfg := rfl
@[simp] theorem State.writeSp_pc (s : State) (v : Word) : (s.writeSp v).pc = s.pc := rfl
@[simp] theorem State.writeSp_status (s : State) (v : Word) : (s.writeSp v).status = s.status := rfl
@[simp] theorem State.writeSp_cc (s : State) (v : Word) : (s.writeSp v).cc = s.cc := rfl
@[simp] theorem State.writeSp_regs (s : State) (v : Word) : (s.writeSp v).regs = s.regs.set s.cfg.spIndex.toNat v s.cfg.spIndex.isLt := rfl
@[simp] theorem State.writeSp_mem (s : State) (v : Word) : (s.writeSp v).mem = s.mem := rfl

@[simp] theorem State.advance_cfg (s : State) (n : Nat) : (s.advance n).cfg = s.cfg := rfl
@[simp] theorem State.advance_pc (s : State) (n : Nat) : (s.advance n).pc = s.pc + BitVec.ofNat 64 n := rfl
@[simp] theorem State.advance_status (s : State) (n : Nat) : (s.advance n).status = s.status := rfl
@[simp] theorem State.advance_cc (s : State) (n : Nat) : (s.advance n).cc = s.cc := rfl
@[simp] theorem State.advance_regs (s : State) (n : Nat) : (s.advance n).regs = s.regs := rfl
@[simp] theorem State.advance_mem (s : State) (n : Nat) : (s.advance n).mem = s.mem := rfl

@[simp] theorem raiseBadAddress_cfg (a : Nat) (s : State) : (raiseBadAddress a s).cfg = s.cfg := rfl
@[simp] theorem raiseBadAddress_pc (a : Nat) (s : State) : (raiseBadAddress a s).pc = s.pc := rfl
@[simp] theorem raiseBadAddress_status (a : Nat) (s : State) : (raiseBadAddress a s).status = .badAddress := rfl
@[simp] theorem raiseBadAddress_cc (a : Nat) (s : State) : (raiseBadAddress a s).cc = s.cc := rfl
@[simp] theorem raiseBadAddress_regs (a : Nat) (s : State) : (raiseBadAddress a s).regs = s.regs := rfl
@[simp] theorem raiseBadAddress_mem (a : Nat) (s : State) : (raiseBadAddress a s).mem = s.mem := rfl

@[simp] theorem raiseBadInstruction_cfg (s : State) : (raiseBadInstruction s).cfg = s.cfg := rfl
@[simp] theorem raiseBadInstruction_pc (s : State) : (raiseBadInstruction s).pc = s.pc + 1 := rfl
@[simp] theorem raiseBadInstruction_status (s : State) : (raiseBadInstruction s).status = .badInstruction := rfl
@[simp] theorem raiseBadInstruction_cc (s : State) : (raiseBadInstruction s).cc = s.cc := rfl
@[simp] theorem raiseBadInstruction_regs (s : State) : (raiseBadInstruction s).regs = s.regs := rfl
@[simp] theorem raiseBadInstruction_mem (s : State) : (raiseBadInstruction s).mem = s.mem := rfl

@[simp] theorem State.setPc_readReg (s : State) (v : Word) (r : RegId) : (s.setPc v).readReg r = s.readReg r := rfl
@[simp] theorem State.setPc_sp (s : State) (v : Word) : (s.setPc v).sp = s.sp := rfl
@[simp] theorem State.setStatus_readReg (s : State) (v : Status) (r : RegId) : (s.setStatus v).readReg r = s.readReg r := rfl
@[simp] theorem State.setStatus_sp (s : State) (v : Status) : (s.setStatus v).sp = s.sp := rfl
@[simp] theorem State.writeFlags_readReg (s : State) (v : Flags) (r : RegId) : (s.writeFlags v).readReg r = s.readReg r := rfl
@[simp] theorem State.writeFlags_sp (s : State) (v : Flags) : (s.writeFlags v).sp = s.sp := rfl
@[simp] theorem State.advance_readReg (s : State) (n : Nat) (r : RegId) : (s.advance n).readReg r = s.readReg r := rfl
@[simp] theorem State.advance_sp (s : State) (n : Nat) : (s.advance n).sp = s.sp := rfl

/-- A register read after a register write (10_state.md R27). -/
theorem State.writeReg_readReg (s : State) (i r : RegId) (v : Word) :
    (s.writeReg i v).readReg r = if r = i then v else s.readReg r := by
  unfold State.readReg State.writeReg
  by_cases h : r = i
  · subst h; simp
  · have : ¬ i.toNat = r.toNat := fun e => h (BitVec.eq_of_toNat_eq e).symm
    simp [h, this]

@[simp] theorem State.writeReg_readReg_same (s : State) (i : RegId) (v : Word) : (s.writeReg i v).readReg i = v := by
  simp [State.writeReg_readReg]

@[simp] theorem State.writeReg_readReg_ne (s : State) (i r : RegId) (v : Word) (h : r ≠ i) :
    (s.writeReg i v).readReg r = s.readReg r := by simp [State.writeReg_readReg, h]

/-- The stack pointer after a register write (10_state.md R25). -/
theorem State.writeReg_sp (s : State) (i : RegId) (v : Word) :
    (s.writeReg i v).sp = if s.cfg.spIndex = i then v else s.sp := s.writeReg_readReg i _ v

theorem State.writeSp_readReg (s : State) (r : RegId) (v : Word) :
    (s.writeSp v).readReg r = if r = s.cfg.spIndex then v else s.readReg r := s.writeReg_readReg _ r v

@[simp] theorem State.writeSp_sp (s : State) (v : Word) : (s.writeSp v).sp = v := s.writeReg_readReg_same _ v

/-- Two states with the same fields, registers compared one by one, are one state. -/
theorem State.ext_readReg {s t : State} (hcfg : s.cfg = t.cfg) (hpc : s.pc = t.pc) (hst : s.status = t.status) (hcc : s.cc = t.cc)
    (hregs : ∀ r, s.readReg r = t.readReg r) (hmem : s.mem = t.mem) : s = t := by
  have hr : s.regs = t.regs := by
    apply Vector.ext
    intro k hk
    have := hregs (BitVec.ofNat 4 k)
    simpa [State.readReg, Nat.mod_eq_of_lt hk] using this
  cases s; cases t; simp_all

/-- R108 writes OK over OK: it changes nothing. -/
@[simp] theorem endOfStep_eq (s : State) : endOfStep s = s := by
  unfold endOfStep
  split <;> try rfl
  rename_i h; cases s; simp_all [State.setStatus]

end Sys2Proof.Machine
end

