-- ==== Sys2Proof/Laws/Ops.lean ====
section
/-! SUPPORT. What each shared operation over memory and the stack can do, said once. -/

namespace Sys2Proof.Machine

/-! ### The four primitives -/

theorem State.readByte_of_inRange {s : State} {a : Nat} (h : s.byteInRange a) : s.readByte a = some (s.mem.read a) := if_pos h

theorem State.readByte_of_outOfRange {s : State} {a : Nat} (h : ¬ s.byteInRange a) : s.readByte a = none := if_neg h

theorem State.readWord_of_inRange {s : State} {a : Nat} (h : s.wordInRange a) : s.readWord a = some (s.mem.readWord a) := if_pos h

theorem State.readWord_of_outOfRange {s : State} {a : Nat} (h : ¬ s.wordInRange a) : s.readWord a = none := if_neg h

theorem State.writeWord_of_inRange {s : State} {a : Nat} (w : Word) (h : s.wordInRange a) :
    s.writeWord a w = some { s with mem := s.mem.writeBytes a (wordBytes w) } := if_pos h

theorem State.writeWord_of_outOfRange {s : State} {a : Nat} (w : Word) (h : ¬ s.wordInRange a) : s.writeWord a w = none := if_neg h

/-- What a completed word write says: it was in range, and only the memory differs. -/
theorem State.writeWord_some {s t : State} {a : Nat} {w : Word} (h : s.writeWord a w = some t) :
    s.wordInRange a ∧ t = { s with mem := s.mem.writeBytes a (wordBytes w) } := by
  unfold State.writeWord at h
  split at h
  · exact ⟨‹_›, (Option.some.inj h).symm⟩
  · cases h

theorem State.readWord_some {s : State} {a : Nat} {v : Word} (h : s.readWord a = some v) :
    s.wordInRange a ∧ v = s.mem.readWord a := by
  unfold State.readWord at h
  split at h
  · exact ⟨‹_›, (Option.some.inj h).symm⟩
  · cases h

/-! ### The stack -/

/-- A push in range: the word at SP - 8, and SP there (46_stack.md R255). -/
theorem State.push_of_inRange {s : State} (v : Word) (h : s.wordInRange s.pushAddress.toNat) :
    s.push v = .ok ({ s with mem := s.mem.writeBytes s.pushAddress.toNat (wordBytes v) }.writeSp s.pushAddress) := by
  simp only [State.push, State.writeWord_of_inRange v h]

theorem State.push_of_outOfRange {s : State} (v : Word) (h : ¬ s.wordInRange s.pushAddress.toNat) :
    s.push v = .error s.pushAddress.toNat := by simp only [State.push, State.writeWord_of_outOfRange v h]

theorem State.topOfStack_of_inRange {s : State} (h : s.wordInRange s.sp.toNat) :
    s.topOfStack = .ok (s.mem.readWord s.sp.toNat) := by simp only [State.topOfStack, State.readWord_of_inRange h]

theorem State.topOfStack_of_outOfRange {s : State} (h : ¬ s.wordInRange s.sp.toNat) : s.topOfStack = .error s.sp.toNat := by
  simp only [State.topOfStack, State.readWord_of_outOfRange h]

/-! ### Loading -/

/-- Bytes loaded in range are memory's bytes and nothing else. -/
theorem State.loadBytes_of_inRange (bs : List Byte) (s : State) (a : Nat) (h : a + bs.length ≤ s.cfg.memSize) :
    s.loadBytes a bs = { s with mem := s.mem.writeBytes a bs } := by
  induction bs generalizing s a with
  | nil => rfl
  | cons b bs ih =>
    simp only [List.length_cons] at h
    have hb : s.writeByte a b = some { s with mem := s.mem.write a b } := if_pos (by unfold State.byteInRange; omega)
    rw [State.loadBytes, hb, Option.getD_some, ih _ _ (by dsimp only; omega), Memory.writeBytes]

end Sys2Proof.Machine
end

