-- ==== Sys2Proof/Laws/Exec.lean ====
section
/-! SUPPORT. What each shared rule of the instruction families can do, said once; the instruction lemmas cite these. -/

namespace Sys2Proof.Machine

/-- evaluateCondition of a defined selector (R135). -/
theorem evaluateCondition_some {cfg : Config} {sel : Nybble} {c : Cond} (h : condOf cfg sel = some c) (f : Flags) :
    evaluateCondition cfg sel f = some (condHolds c f) := by
  simp [evaluateCondition, h]

/-- The fatal case (R136). -/
@[simp] theorem evaluateCondition_none_iff (cfg : Config) (sel : Nybble) (f : Flags) :
    evaluateCondition cfg sel f = none ↔ 7 ≤ sel := by
  simp [evaluateCondition, condOf_none_iff]

/-- rmmovq in range (R201). -/
theorem execRmmovq_of_inRange {s : State} (f : Nybble) (rA : RegId) {rB : RegId} {d : Word}
    (h : s.wordInRange (s.dataAddress rB d).toNat) :
    execRmmovq f rA rB d s =
      .next ({ s with mem := s.mem.writeBytes (s.dataAddress rB d).toNat (wordBytes (s.readReg rA)) }.advance 10) := by
  simp only [execRmmovq, State.writeWord_of_inRange _ h]

theorem execRmmovq_of_outOfRange {s : State} (f : Nybble) (rA : RegId) {rB : RegId} {d : Word}
    (h : ¬ s.wordInRange (s.dataAddress rB d).toNat) :
    execRmmovq f rA rB d s = .next (raiseBadAddress (s.dataAddress rB d).toNat s) := by
  simp only [execRmmovq, State.writeWord_of_outOfRange _ h]

/-- mrmovq in range (R202). -/
theorem execMrmovq_of_inRange {s : State} (f : Nybble) (rA : RegId) {rB : RegId} {d : Word}
    (h : s.wordInRange (s.dataAddress rB d).toNat) :
    execMrmovq f rA rB d s = .next ((s.writeReg rA (s.mem.readWord (s.dataAddress rB d).toNat)).advance 10) := by
  simp only [execMrmovq, State.readWord_of_inRange h]

theorem execMrmovq_of_outOfRange {s : State} (f : Nybble) (rA : RegId) {rB : RegId} {d : Word}
    (h : ¬ s.wordInRange (s.dataAddress rB d).toNat) :
    execMrmovq f rA rB d s = .next (raiseBadAddress (s.dataAddress rB d).toNat s) := by
  simp only [execMrmovq, State.readWord_of_outOfRange h]

/-- call in range (R230). -/
theorem execCall_of_inRange {s : State} (f : Nybble) (d : Word) (h : s.wordInRange s.pushAddress.toNat) :
    execCall f d s =
      .next (({ s with mem := s.mem.writeBytes s.pushAddress.toNat (wordBytes (s.pc + 9)) }.writeSp s.pushAddress).setPc d) := by
  simp only [execCall, State.push_of_inRange _ h, Except.map, orBadAddress]

theorem execCall_of_outOfRange {s : State} (f : Nybble) (d : Word) (h : ¬ s.wordInRange s.pushAddress.toNat) :
    execCall f d s = .next (raiseBadAddress s.pushAddress.toNat s) := by
  simp only [execCall, State.push_of_outOfRange _ h, Except.map, orBadAddress]

/-- ret in range (R231). -/
theorem execRet_of_inRange {s : State} (f : Nybble) (h : s.wordInRange s.sp.toNat) :
    execRet f s = .next ((s.writeSp (s.sp + 8)).setPc (s.mem.readWord s.sp.toNat)) := by
  simp only [execRet, State.topOfStack_of_inRange h, Except.map, orBadAddress]

theorem execRet_of_outOfRange {s : State} (f : Nybble) (h : ¬ s.wordInRange s.sp.toNat) :
    execRet f s = .next (raiseBadAddress s.sp.toNat s) := by
  simp only [execRet, State.topOfStack_of_outOfRange h, Except.map, orBadAddress]

/-- pushq in range (R250). -/
theorem execPushq_of_inRange {s : State} (f : Nybble) (rA : RegId) (x : Nybble) (h : s.wordInRange s.pushAddress.toNat) :
    execPushq f rA x s =
      .next (({ s with mem := s.mem.writeBytes s.pushAddress.toNat (wordBytes (s.pushValue rA)) }.writeSp
        s.pushAddress).advance 2) := by
  simp only [execPushq, State.push_of_inRange _ h, Except.map, orBadAddress]

theorem execPushq_of_outOfRange {s : State} (f : Nybble) (rA : RegId) (x : Nybble) (h : ¬ s.wordInRange s.pushAddress.toNat) :
    execPushq f rA x s = .next (raiseBadAddress s.pushAddress.toNat s) := by
  simp only [execPushq, State.push_of_outOfRange _ h, Except.map, orBadAddress]

/-- popq in range (R251). -/
theorem execPopq_of_inRange {s : State} (f : Nybble) (rA : RegId) (x : Nybble) (h : s.wordInRange s.sp.toNat) :
    execPopq f rA x s = .next ((s.popInto rA (s.mem.readWord s.sp.toNat)).advance 2) := by
  simp only [execPopq, State.topOfStack_of_inRange h, Except.map, orBadAddress]

theorem execPopq_of_outOfRange {s : State} (f : Nybble) (rA : RegId) (x : Nybble) (h : ¬ s.wordInRange s.sp.toNat) :
    execPopq f rA x s = .next (raiseBadAddress s.sp.toNat s) := by
  simp only [execPopq, State.topOfStack_of_outOfRange h, Except.map, orBadAddress]

@[simp] theorem State.popInto_cfg (s : State) (rA : RegId) (v : Word) : (s.popInto rA v).cfg = s.cfg := by
  unfold State.popInto; split <;> rfl
@[simp] theorem State.popInto_pc (s : State) (rA : RegId) (v : Word) : (s.popInto rA v).pc = s.pc := by
  unfold State.popInto; split <;> rfl
@[simp] theorem State.popInto_status (s : State) (rA : RegId) (v : Word) : (s.popInto rA v).status = s.status := by
  unfold State.popInto; split <;> rfl
@[simp] theorem State.popInto_cc (s : State) (rA : RegId) (v : Word) : (s.popInto rA v).cc = s.cc := by
  unfold State.popInto; split <;> rfl
@[simp] theorem State.popInto_mem (s : State) (rA : RegId) (v : Word) : (s.popInto rA v).mem = s.mem := by
  unfold State.popInto; split <;> rfl

/-- The registers after a pop into a register (R251). -/
theorem State.popInto_readReg (s : State) (rA r : RegId) (v : Word) :
    (s.popInto rA v).readReg r =
      if r = rA ∧ rA ≠ s.cfg.spIndex then v
      else if r = s.cfg.spIndex then
        (if rA = s.cfg.spIndex then (if s.cfg.spOperandMode = .sequential then v + 8 else v) else s.sp + 8)
      else s.readReg r := by
  unfold State.popInto
  split
  · rename_i hm
    simp only [State.writeSp_readReg, State.writeReg_readReg, State.writeReg_sp, State.writeReg_cfg, hm]
    by_cases h : rA = s.cfg.spIndex
    · by_cases hr : r = s.cfg.spIndex <;> simp [h, hr]
    · by_cases hr : r = s.cfg.spIndex
      · simp [hr, h, Ne.symm h]
      · by_cases hra : r = rA <;> simp_all
  · rename_i hm
    simp only [State.writeSp_readReg, State.writeReg_readReg, hm]
    by_cases h : rA = s.cfg.spIndex
    · by_cases hr : r = s.cfg.spIndex <;> simp [h, hr]
    · by_cases hr : r = s.cfg.spIndex
      · simp [hr, h, Ne.symm h]
      · by_cases hra : r = rA <;> simp_all

end Sys2Proof.Machine
end

