-- ==== Sys2Proof/Laws/Fetch.lean ====
section
/-! SUPPORT. Fetching: the operand bytes read off memory are those the decoder takes off a byte list, and what a step does in each
case. -/

namespace Sys2Proof.Machine

@[simp] theorem Memory.readBytes_length (m : Memory) (a n : Nat) : (m.readBytes a n).length = n := by
  induction n generalizing a with
  | zero => rfl
  | succ n ih => simp [Memory.readBytes, ih]

theorem Memory.readBytes_getElem (m : Memory) (a n k : Nat) (h : k < (m.readBytes a n).length) :
    (m.readBytes a n)[k] = m.read (a + k) := by
  induction n generalizing a k with
  | zero => simp [Memory.readBytes] at h
  | succ n ih =>
    cases k with
    | zero => rfl
    | succ k =>
      simp only [Memory.readBytes, List.getElem_cons_succ, ih]
      congr 1; omega

/-- The word at the head of memory's bytes is memory's word. -/
theorem takeWord_readBytes (m : Memory) (a n : Nat) :
    takeWord (m.readBytes a n) = if 8 ≤ n then some (m.readWord a, m.readBytes (a + 8) (n - 8)) else none := by
  split
  · obtain ⟨k, rfl⟩ : ∃ k, n = k + 8 := ⟨n - 8, by omega⟩
    rfl
  · exact takeWord_none (by simp; omega)

theorem takeByte_readBytes (m : Memory) (a n : Nat) :
    takeByte (m.readBytes a n) = if 1 ≤ n then some (m.read a, m.readBytes (a + 1) (n - 1)) else none := by
  cases n <;> rfl

/-- One step with the status OK (R101). -/
theorem step_of_ok {s : State} (h : s.status = .ok) : step s = stepRunning s := by
  unfold step; rw [h]

/-- One step in a terminal status (R101). -/
theorem step_of_terminal {s : State} (h : s.status ≠ .ok) : step s = .next s := by
  unfold step
  cases hs : s.status <;> simp_all

/-- The step once its instruction is fetched; R108 adds nothing. -/
theorem stepRunning_instr {s : State} {i : Instr} (h : s.fetchInstr = .instr i) : stepRunning s = exec i s := by
  unfold stepRunning
  rw [h]
  cases he : exec i s <;> simp [he]

theorem stepRunning_badAddress {s : State} {a : Nat} (h : s.fetchInstr = .badAddress a) :
    stepRunning s = .next (raiseBadAddress a s) := by
  unfold stepRunning; rw [h]

theorem stepRunning_badInstruction {s : State} (h : s.fetchInstr = .badInstruction) :
    stepRunning s = .next (raiseBadInstruction s) := by
  unfold stepRunning; rw [h]

/-- The operand bytes of a format are fetched exactly when the whole instruction lies in memory, and are then the decoder's
(R105, R74). -/
theorem fetchOperands_eq (s : State) (f : Format) (h : s.pc.toNat < s.cfg.memSize) :
    (s.pc.toNat + f.length ≤ s.cfg.memSize →
      ∃ b v rest, s.fetchOperands f = .ok (b, v) ∧ takeOperands f (s.codeBytes.drop 1) = some (b, v, rest)) ∧
    (s.cfg.memSize < s.pc.toNat + f.length →
      (∃ a, s.fetchOperands f = .error a) ∧ takeOperands f (s.codeBytes.drop 1) = none) := by
  have hd : s.codeBytes.drop 1 = s.mem.readBytes (s.pc.toNat + 1) (min 10 (s.cfg.memSize - s.pc.toNat) - 1) := by
    unfold State.codeBytes
    obtain ⟨k, hk⟩ : ∃ k, min 10 (s.cfg.memSize - s.pc.toNat) = k + 1 := ⟨_, (Nat.succ_pred_eq_of_pos (by omega)).symm⟩
    rw [hk]; rfl
  rw [hd]
  have hb (n : Nat) : s.readByte n = if n < s.cfg.memSize then some (s.mem.read n) else none := rfl
  have hw (n : Nat) : s.readWord n = if n + 8 ≤ s.cfg.memSize then some (s.mem.readWord n) else none := rfl
  cases f <;>
    simp only [Format.length, takeOperands, State.fetchOperands, State.fetchRegByte, State.fetchValC, takeByte_readBytes,
      hb, hw]
  · exact ⟨fun _ => ⟨_, _, _, rfl, rfl⟩, fun h' => by omega⟩
  · refine ⟨fun h' => ?_, fun h' => ?_⟩
    · rw [if_pos (by omega), if_pos (by omega)]; exact ⟨_, _, _, rfl, rfl⟩
    · rw [if_neg (by omega), if_neg (by omega)]; exact ⟨⟨_, rfl⟩, rfl⟩
  · refine ⟨fun h' => ?_, fun h' => ?_⟩
    · rw [takeWord_readBytes, if_pos (by omega), if_pos (by omega)]; exact ⟨_, _, _, rfl, rfl⟩
    · rw [takeWord_readBytes, if_neg (by omega), if_neg (by omega)]; exact ⟨⟨_, rfl⟩, rfl⟩
  · refine ⟨fun h' => ?_, fun h' => ?_⟩
    · rw [if_pos (by omega), if_pos (by omega), if_pos (by omega)]
      simp only [Option.bind_some, takeWord_readBytes]
      rw [if_pos (by omega)]
      exact ⟨_, _, _, rfl, rfl⟩
    · by_cases h1 : s.pc.toNat + 1 < s.cfg.memSize
      · rw [if_pos h1, if_neg (by omega), if_pos (by omega)]
        simp only [Option.bind_some, takeWord_readBytes]
        rw [if_neg (by omega)]
        exact ⟨⟨_, rfl⟩, rfl⟩
      · rw [if_neg h1, if_neg (show ¬ 1 ≤ min 10 (s.cfg.memSize - s.pc.toNat) - 1 by omega)]; exact ⟨⟨_, rfl⟩, rfl⟩

/-- What fetchInstr finds, in the decoder's words: the instruction the bytes from pc decode to, or BAD_ADDRESS when they run out,
or BAD_INSTRUCTION when the strict ifun check refuses them. -/
theorem fetchInstr_eq (s : State) :
    match decode s.cfg s.codeBytes with
    | .ok (i, _) => s.fetchInstr = .instr i
    | .error .truncated => ∃ a, s.fetchInstr = .badAddress a
    | .error (.nonzeroIfun _ _) => s.fetchInstr = .badInstruction := by
  by_cases h : s.pc.toNat < s.cfg.memSize
  · have hc : s.codeBytes = s.mem.read s.pc.toNat :: s.codeBytes.drop 1 := by
      unfold State.codeBytes
      obtain ⟨k, hk⟩ : ∃ k, min 10 (s.cfg.memSize - s.pc.toNat) = k + 1 := ⟨_, (Nat.succ_pred_eq_of_pos (by omega)).symm⟩
      rw [hk]; rfl
    rw [hc]
    unfold decode State.fetchInstr
    rw [State.readByte_of_inRange h]
    dsimp only
    cases hv : decodeOpcode s.cfg (s.mem.read s.pc.toNat) with
    | whole i => rfl
    | rejected r =>
      cases r with
      | truncated =>
        exfalso
        unfold decodeOpcode at hv
        dsimp only at hv
        split at hv <;> [skip; (split at hv <;> [skip; split at hv])] <;> cases hv
      | nonzeroIfun c f => rfl
    | operands cls ifun =>
      have hf := fetchOperands_eq s cls.format h
      dsimp only
      by_cases hl : s.pc.toNat + cls.format.length ≤ s.cfg.memSize
      · obtain ⟨b, v, rest, h1, h2⟩ := hf.1 hl
        rw [h1, h2]
      · obtain ⟨⟨a, h1⟩, h2⟩ := hf.2 (by omega)
        rw [h1, h2]
        exact ⟨a, rfl⟩
  · have hc : s.codeBytes = [] := by
      unfold State.codeBytes
      rw [show min 10 (s.cfg.memSize - s.pc.toNat) = 0 by omega]; rfl
    rw [hc]
    exact ⟨_, by unfold State.fetchInstr; rw [State.readByte_of_outOfRange h]⟩

/-- What the opcode byte makes of the fetch (R105, R106). -/
theorem fetchInstr_of_readByte {s : State} {b : Byte} (h : s.readByte s.pc.toNat = some b) :
    s.fetchInstr =
      match decodeOpcode s.cfg b with
      | .whole i => .instr i
      | .rejected _ => .badInstruction
      | .operands cls ifun =>
        match s.fetchOperands cls.format with
        | .ok (regByte, valC) => .instr (assemble s.cfg cls ifun regByte valC)
        | .error addr => .badAddress addr := by
  unfold State.fetchInstr
  generalize s.readByte s.pc.toNat = r at h
  subst h
  rfl

/-- Everything a step that gives a next state can have done. -/
theorem step_next_cases {s t : State} (h : step s = .next t) :
    s.status ≠ .ok ∧ t = s ∨
    s.status = .ok ∧
      ((∃ a, s.fetchInstr = .badAddress a ∧ t = raiseBadAddress a s) ∨
        (s.fetchInstr = .badInstruction ∧ t = raiseBadInstruction s) ∨
        ∃ i, s.fetchInstr = .instr i ∧ exec i s = .next t) := by
  by_cases hs : s.status = .ok
  · refine .inr ⟨hs, ?_⟩
    rw [step_of_ok hs] at h
    cases hf : s.fetchInstr with
    | badAddress a =>
      rw [stepRunning_badAddress hf] at h
      exact .inl ⟨a, rfl, (Host.Outcome.next.inj h).symm⟩
    | badInstruction =>
      rw [stepRunning_badInstruction hf] at h
      exact .inr (.inl ⟨rfl, (Host.Outcome.next.inj h).symm⟩)
    | instr i =>
      rw [stepRunning_instr hf] at h
      exact .inr (.inr ⟨i, rfl, h⟩)
  · rw [step_of_terminal hs] at h
    exact .inl ⟨hs, (Host.Outcome.next.inj h).symm⟩

end Sys2Proof.Machine
end

