-- ==== Sys2Proof/Laws/PerInstr.lean ====
section
/-! SUPPORT. Facts about every instruction as syntax, one lemma per constructor. Family EncodedLength: the encoding has the length
R70 gives the instruction's format. -/

namespace Sys2Proof.Laws.EncodedLength

/-- Under any `ICODE_MAP` and `COND_MAP` the encoding is as long as the instruction (R70, R83). -/
def Statement (i : Instr) : Prop := ∀ cfg : Config, (encode cfg i).length = i.length

theorem halt (ifun : Nybble) : Statement (.halt ifun) := fun _ => rfl
theorem nop (ifun : Nybble) : Statement (.nop ifun) := fun _ => rfl
theorem rrmovq (rA rB : RegId) : Statement (.rrmovq rA rB) := fun _ => rfl
theorem cmovle (rA rB : RegId) : Statement (.cmovle rA rB) := fun _ => rfl
theorem cmovl (rA rB : RegId) : Statement (.cmovl rA rB) := fun _ => rfl
theorem cmove (rA rB : RegId) : Statement (.cmove rA rB) := fun _ => rfl
theorem cmovne (rA rB : RegId) : Statement (.cmovne rA rB) := fun _ => rfl
theorem cmovge (rA rB : RegId) : Statement (.cmovge rA rB) := fun _ => rfl
theorem cmovg (rA rB : RegId) : Statement (.cmovg rA rB) := fun _ => rfl
theorem irmovq (ifun rA : Nybble) (rB : RegId) (valC : Word) : Statement (.irmovq ifun rA rB valC) := fun _ => rfl
theorem rmmovq (ifun : Nybble) (rA rB : RegId) (valC : Word) : Statement (.rmmovq ifun rA rB valC) := fun _ => rfl
theorem mrmovq (ifun : Nybble) (rA rB : RegId) (valC : Word) : Statement (.mrmovq ifun rA rB valC) := fun _ => rfl
theorem addq (rA rB : RegId) : Statement (.addq rA rB) := fun _ => rfl
theorem subq (rA rB : RegId) : Statement (.subq rA rB) := fun _ => rfl
theorem andq (rA rB : RegId) : Statement (.andq rA rB) := fun _ => rfl
theorem xorq (rA rB : RegId) : Statement (.xorq rA rB) := fun _ => rfl
theorem jmp (valC : Word) : Statement (.jmp valC) := fun _ => rfl
theorem jle (valC : Word) : Statement (.jle valC) := fun _ => rfl
theorem jl (valC : Word) : Statement (.jl valC) := fun _ => rfl
theorem je (valC : Word) : Statement (.je valC) := fun _ => rfl
theorem jne (valC : Word) : Statement (.jne valC) := fun _ => rfl
theorem jge (valC : Word) : Statement (.jge valC) := fun _ => rfl
theorem jg (valC : Word) : Statement (.jg valC) := fun _ => rfl
theorem call (ifun : Nybble) (valC : Word) : Statement (.call ifun valC) := fun _ => rfl
theorem ret (ifun : Nybble) : Statement (.ret ifun) := fun _ => rfl
theorem pushq (ifun : Nybble) (rA : RegId) (rB : Nybble) : Statement (.pushq ifun rA rB) := fun _ => rfl
theorem popq (ifun : Nybble) (rA : RegId) (rB : Nybble) : Statement (.popq ifun rA rB) := fun _ => rfl
theorem cmovUndef7 (rA rB : RegId) : Statement (.cmovUndef7 rA rB) := fun _ => rfl
theorem cmovUndef8to15 (low : BitVec 3) (rA rB : RegId) : Statement (.cmovUndef8to15 low rA rB) := fun _ => rfl
theorem jxxUndef7 (valC : Word) : Statement (.jxxUndef7 valC) := fun _ => rfl
theorem jxxUndef8to15 (low : BitVec 3) (valC : Word) : Statement (.jxxUndef8to15 low valC) := fun _ => rfl
theorem op1Undef4to7 (low : BitVec 2) : Statement (.op1Undef4to7 low) := fun _ => rfl
theorem op1Undef8to15 (low : BitVec 3) : Statement (.op1Undef8to15 low) := fun _ => rfl
theorem unknownIcode (low : BitVec 2) (ifun : Nybble) : Statement (.unknownIcode low ifun) := fun _ => rfl

end Sys2Proof.Laws.EncodedLength
end

