-- ==== Sys2Proof/Tests/Slice0.lean ====
section
/-! SUPPORT. Tests on fixed values, and the witnesses of the obligations' hypotheses. Expected results are those of 95_test_vectors.md
(W: worked vectors of its section 3, all at the default ICODE_MAP and COND_MAP) or hand computation from the rule named. -/

namespace Sys2Proof.Tests

open Sys2Proof.Machine

/-! ### Small states -/

/-- The conventions of 95_test_vectors.md: MEM_SIZE = 0x1000, every other parameter at its default. -/
def config : Config := { defaultConfig with memSize := 0x1000 }

/-- The defaults under STRICT_IFUN. -/
def strictConfig : Config := { defaultConfig with strictIfun := true }

/-- Another ICODE_MAP and COND_MAP, the classes and the conditions after ALWAYS in reverse order; STRICT_IFUN is set. -/
def renumberedConfig : Config :=
  { strictConfig with
    icodeMap := #v[.popq, .pushq, .ret, .call, .jxx, .op1, .mrmovq, .rmmovq, .irmovq, .cmov, .nop, .halt]
    condMap := #v[.always, .gt, .ge, .ne, .eq, .lt, .le] }

/-- A running state: pc, the registers that are not zero, and the bytes at pc. -/
def machine (pc : Word) (regs : List (RegId × Word)) (code : List Byte) : State :=
  (regs.foldl (fun (s : State) p => s.writeReg p.1 p.2)
    { State.launch config ⟨false, false, false⟩ (Vector.replicate 16 0) [] with pc := pc }).loadBytes pc.toNat code

/-- The same with the flags Z, S, O. -/
def withFlags (s : State) (z sg o : Bool) : State := { s with cc := ⟨z, sg, o⟩ }

/-- The same in the y86 setting of SP_OPERAND_MODE. -/
def inY86 (s : State) : State := { s with cfg := { s.cfg with spOperandMode := .y86 } }

/-- The same under STRICT_IFUN. -/
def inStrict (s : State) : State := { s with cfg := { s.cfg with strictIfun := true } }

/-- The same under the renumbered maps. -/
def inRenumbered (s : State) : State :=
  { s with cfg := { s.cfg with icodeMap := renumberedConfig.icodeMap, condMap := renumberedConfig.condMap } }

/-- The same under ADD_DISPLACEMENT. -/
def inDisplaced (s : State) : State := { s with cfg := { s.cfg with addDisplacement := true } }

/-- Whether an outcome is a next state. -/
def completes : Host.Outcome State Fault Refusal → Bool
  | .next _ => true
  | .fault _ => false
  | .refused _ => false

/-- The next state of an outcome that has one. -/
def nextState : Host.Outcome State Fault Refusal → State
  | .next t => t
  | .fault _ => State.reset
  | .refused _ => State.reset

theorem eq_next {o : Host.Outcome State Fault Refusal} (h : completes o = true) : o = .next (nextState o) := by
  cases o <;> first | rfl | cases h

/-- The abort of an outcome that is one. -/
def abortOf : Host.Outcome State Fault Refusal → Option (Word × Nybble)
  | .fault (.fatalAbort p sel) => some (p, sel)
  | .next _ => none
  | .refused _ => none

theorem eq_fault {o : Host.Outcome State Fault Refusal} {p : Word} {sel : Nybble} (h : abortOf o = some (p, sel)) :
    o = .fault (.fatalAbort p sel) := by
  cases o with
  | fault f => cases f; cases h; rfl
  | next t => cases h
  | refused r => cases h

/-- pc and status after one step; none when the step gives no state. -/
def after (s : State) : Option (Word × Status) :=
  if completes (step s) then some ((nextState (step s)).pc, (nextState (step s)).status) else none

/-- A register after one step. -/
def regAfter (s : State) (r : RegId) : Word := (nextState (step s)).readReg r

/-- The flags Z, S, O after one step. -/
def flagsAfter (s : State) : Bool × Bool × Bool :=
  ((nextState (step s)).cc.z, (nextState (step s)).cc.s, (nextState (step s)).cc.o)

/-- Eight bytes of memory after one step. -/
def bytesAfter (s : State) (a : Nat) : List Byte := (nextState (step s)).mem.readBytes a 8

/-! ### Well-formedness -/

theorem test_wf_refuses_halt : (Instr.halt 1).wf true = false := by decide
theorem test_wf_refuses_nop : (Instr.nop 5).wf true = false := by decide
theorem test_wf_refuses_irmovq : (Instr.irmovq 2 0xF 3 0x2A).wf true = false := by decide
theorem test_wf_refuses_rmmovq : (Instr.rmmovq 1 1 2 0).wf true = false := by decide
theorem test_wf_refuses_mrmovq : (Instr.mrmovq 0xF 3 2 0).wf true = false := by decide
theorem test_wf_refuses_call : (Instr.call 8 0x40).wf true = false := by decide
theorem test_wf_refuses_ret : (Instr.ret 1).wf true = false := by decide
theorem test_wf_refuses_pushq : (Instr.pushq 1 1 0xF).wf true = false := by decide
theorem test_wf_refuses_popq : (Instr.popq 4 2 0xF).wf true = false := by decide
theorem test_wf_accepts : (Instr.nop 0).wf true = true ∧ (Instr.nop 5).wf false = true ∧ (Instr.cmovle 1 2).wf true = true := by
  decide

/-! ### Decoding: one word of each constructor, written out from 30_encoding.md R70-R79, R96 -/

theorem test_decode_F1 :
    decode defaultConfig [0x00] = .ok (.halt 0, []) ∧ decode defaultConfig [0x10, 0x00] = .ok (.nop 0, [0x00]) ∧
    decode defaultConfig [0x90] = .ok (.ret 0, []) := by decide

theorem test_decode_cmov :
    decode defaultConfig [0x20, 0x12] = .ok (.rrmovq 1 2, []) ∧ decode defaultConfig [0x21, 0x12] = .ok (.cmovle 1 2, []) ∧
    decode defaultConfig [0x22, 0x37] = .ok (.cmovl 3 7, []) ∧ decode defaultConfig [0x23, 0x12] = .ok (.cmove 1 2, []) ∧
    decode defaultConfig [0x24, 0x12] = .ok (.cmovne 1 2, []) ∧ decode defaultConfig [0x25, 0x35] = .ok (.cmovge 3 5, []) ∧
    decode defaultConfig [0x26, 0x12] = .ok (.cmovg 1 2, []) := by decide

theorem test_decode_F10 :
    decode defaultConfig [0x30, 0xF1, 0xFF, 0xFF, 0xFF, 0xFF, 0xFF, 0xFF, 0xFF, 0x7F] =
      .ok (.irmovq 0 0xF 1 0x7FFFFFFFFFFFFFFF, []) ∧
    decode defaultConfig [0x40, 0x12, 0x08, 0, 0, 0, 0, 0, 0, 0] = .ok (.rmmovq 0 1 2 8, []) ∧
    decode defaultConfig [0x50, 0x32, 0, 0x01, 0, 0, 0, 0, 0, 0] = .ok (.mrmovq 0 3 2 0x100, []) := by decide

theorem test_decode_op1 :
    decode defaultConfig [0x60, 0x33] = .ok (.addq 3 3, []) ∧ decode defaultConfig [0x61, 0x12] = .ok (.subq 1 2, []) ∧
    decode defaultConfig [0x62, 0x12] = .ok (.andq 1 2, []) ∧ decode defaultConfig [0x63, 0x0F] = .ok (.xorq 0 15, []) := by decide

theorem test_decode_jxx :
    decode defaultConfig [0x70, 0x00, 0x01, 0, 0, 0, 0, 0, 0] = .ok (.jmp 0x100, []) ∧
    decode defaultConfig [0x71, 0x40, 0, 0, 0, 0, 0, 0, 0] = .ok (.jle 0x40, []) ∧
    decode defaultConfig [0x72, 0x40, 0, 0, 0, 0, 0, 0, 0] = .ok (.jl 0x40, []) ∧
    decode defaultConfig [0x73, 0x40, 0, 0, 0, 0, 0, 0, 0] = .ok (.je 0x40, []) ∧
    decode defaultConfig [0x74, 0x16, 0, 0, 0, 0, 0, 0, 0] = .ok (.jne 0x16, []) ∧
    decode defaultConfig [0x75, 0x40, 0, 0, 0, 0, 0, 0, 0] = .ok (.jge 0x40, []) ∧
    decode defaultConfig [0x76, 0, 0, 0, 0, 0, 0, 0, 0x80] = .ok (.jg 0x8000000000000000, []) := by decide

theorem test_decode_call_and_stack :
    decode defaultConfig [0x80, 0x80, 0, 0, 0, 0, 0, 0, 0] = .ok (.call 0 0x80, []) ∧
    decode defaultConfig [0xA0, 0x1F] = .ok (.pushq 0 1 0xF, []) ∧ decode defaultConfig [0xB0, 0x2F] = .ok (.popq 0 2 0xF, []) := by decide

theorem test_decode_reserved :
    decode defaultConfig [0x27, 0x12] = .ok (.cmovUndef7 1 2, []) ∧ decode defaultConfig [0x2F, 0x12] = .ok (.cmovUndef8to15 7 1 2, []) ∧
    decode defaultConfig [0x77, 0x40, 0, 0, 0, 0, 0, 0, 0] = .ok (.jxxUndef7 0x40, []) ∧
    decode defaultConfig [0x7F, 0x40, 0, 0, 0, 0, 0, 0, 0] = .ok (.jxxUndef8to15 7 0x40, []) ∧
    decode defaultConfig [0x64, 0x12] = .ok (.op1Undef4to7 0, [0x12]) ∧ decode defaultConfig [0x6F] = .ok (.op1Undef8to15 7, []) ∧
    decode defaultConfig [0xC0] = .ok (.unknownIcode 0 0, []) ∧ decode defaultConfig [0xFE, 0x01] = .ok (.unknownIcode 3 0xE, [0x01]) := by
  decide

theorem test_decode_rejects_by_name :
    decode strictConfig [0x15] = .error (.nonzeroIfun 1 5) ∧ decode defaultConfig [0x60] = .error .truncated ∧
    decode defaultConfig [0x74, 0, 0, 0, 0, 0, 0, 0] = .error .truncated ∧ decode defaultConfig [] = .error .truncated := by decide

/-- R75, R134: under the renumbered maps 0x96 is CMOVxx with LE, 0x51 is subq and 0xC0 still names no class. -/
theorem test_decode_renumbered :
    decode renumberedConfig [0x96, 0x12] = .ok (.cmovle 1 2, []) ∧ decode renumberedConfig [0x51, 0x12] = .ok (.subq 1 2, []) ∧
    decode renumberedConfig [0x97, 0x12] = .ok (.cmovUndef7 1 2, []) ∧ decode renumberedConfig [0xB0] = .ok (.halt 0, []) ∧
    encode renumberedConfig (.jg 0) = [0x41, 0, 0, 0, 0, 0, 0, 0, 0] ∧ decode renumberedConfig [0xC0] = .ok (.unknownIcode 0 0, []) := by
  decide

/-- Maps that are no numbering: a class twice, and ALWAYS under another number than 0. -/
theorem test_mapsWf_refuses :
    ¬ { defaultConfig with icodeMap := #v[.halt, .halt, .cmov, .irmovq, .rmmovq, .mrmovq, .op1, .jxx, .call, .ret, .pushq, .popq] }.mapsWf ∧
    ¬ { defaultConfig with condMap := #v[.le, .always, .lt, .eq, .ne, .ge, .gt] }.mapsWf := by decide

/-- The host's word for a row: bit 0 is the lowest bit of the first byte. -/
theorem test_decodeTableWord :
    decodeTableWord 16 0x1220 = some (.rrmovq 1 2) ∧ decodeTableWord 8 0x61 = some (.subq 0 0) ∧
    decodeTableWord 80 0x7FFFFFFFFFFFFFFFF130 = some (.irmovq 0 0xF 1 0x7FFFFFFFFFFFFFFF) ∧
    decodeTableWord 8 0xC0 = some (.unknownIcode 0 0) := by decide

/-- The next step after reset runs the placed instruction. -/
theorem test_withFetchWord :
    after (State.reset.withFetchWord 16 0x1220) = some (2, .ok) ∧
    regAfter (State.reset.withFetchWord 80 0x7FFFFFFFFFFFFFFFF130) 1 = 0x7FFFFFFFFFFFFFFF ∧
    after (State.reset.withFetchWord 8 0x70) = some (0, .ok) ∧
    abortOf (step (State.reset.withFetchWord 16 0x1227)) = some (0, 7) := by decide

/-! ### One step of each instruction (W 3.2 to 3.8) -/

theorem test_halt : after (machine 0 [] [0x0F]) = some (0, .halted) := by decide
theorem test_nop : after (machine 0x100 [] [0x10]) = some (0x101, .ok) := by decide

theorem test_addq_overflow :
    regAfter (machine 0 [(1, 1), (2, 0x7FFFFFFFFFFFFFFF)] [0x60, 0x12]) 2 = 0x8000000000000000 ∧
    flagsAfter (machine 0 [(1, 1), (2, 0x7FFFFFFFFFFFFFFF)] [0x60, 0x12]) = (false, true, true) := by decide
theorem test_addq_zero :
    flagsAfter (machine 0 [(1, 0x8000000000000000), (2, 0x8000000000000000)] [0x60, 0x12]) = (true, false, true) ∧
    regAfter (machine 0 [(3, 0x2A)] [0x60, 0x33]) 3 = 0x54 := by decide
theorem test_subq_order :
    regAfter (machine 0 [(1, 5), (2, 3)] [0x61, 0x12]) 2 = 0xFFFFFFFFFFFFFFFE ∧
    flagsAfter (machine 0 [(1, 5), (2, 3)] [0x61, 0x12]) = (false, true, false) := by decide
theorem test_subq_overflow :
    regAfter (machine 0 [(1, 1), (2, 0x8000000000000000)] [0x61, 0x12]) 2 = 0x7FFFFFFFFFFFFFFF ∧
    flagsAfter (machine 0 [(1, 1), (2, 0x8000000000000000)] [0x61, 0x12]) = (false, false, true) := by decide
theorem test_andq_replaces_flags :
    regAfter (withFlags (machine 0 [(1, 1), (2, 2)] [0x62, 0x12]) true true true) 2 = 0 ∧
    flagsAfter (withFlags (machine 0 [(1, 1), (2, 2)] [0x62, 0x12]) true true true) = (true, false, false) := by decide
theorem test_xorq :
    regAfter (machine 0 [(1, 0xFFFFFFFFFFFFFFFF), (2, 0xFF)] [0x63, 0x12]) 2 = 0xFFFFFFFFFFFFFF00 ∧
    flagsAfter (machine 0 [(1, 0xFFFFFFFFFFFFFFFF), (2, 0xFF)] [0x63, 0x12]) = (false, true, false) := by decide

/-- W 3.3: x[2] after the move `2c 12` from x[1] = 7 with flags Z, S, O. -/
def moved (opcode : Byte) (z sg o : Bool) : Word := regAfter (withFlags (machine 0 [(1, 7)] [opcode, 0x12]) z sg o) 2

theorem test_rrmovq : moved 0x20 false true true = 7 := by decide
theorem test_cmovle : moved 0x21 false false false = 0 ∧ moved 0x21 true false false = 7 := by decide
theorem test_cmovl : moved 0x22 false true false = 7 ∧ moved 0x22 false true true = 0 := by decide
theorem test_cmove : moved 0x23 true false false = 7 ∧ moved 0x23 false false false = 0 := by decide
theorem test_cmovne : moved 0x24 false false false = 7 ∧ moved 0x24 true false false = 0 := by decide
theorem test_cmovge : moved 0x25 false true true = 7 ∧ moved 0x25 false false true = 0 := by decide
theorem test_cmovg : moved 0x26 true false false = 0 ∧ moved 0x26 false false false = 7 := by decide
theorem test_cmov_always_advances : after (machine 0 [(1, 7)] [0x21, 0x12]) = some (2, .ok) := by decide

theorem test_irmovq :
    regAfter (machine 0 [] [0x30, 0xF3, 0x2A, 0, 0, 0, 0, 0, 0, 0]) 3 = 0x2A ∧
    after (machine 0xFF8 [] [0x30, 0xF1, 0x01, 0, 0, 0, 0, 0]) = some (0xFF8, .badAddress) := by decide
theorem test_rmmovq_little_endian :
    bytesAfter (machine 0 [(1, 0x1122334455667788), (2, 0x200)] [0x40, 0x12, 0, 0, 0, 0, 0, 0, 0, 0]) 0x200 =
      [0x88, 0x77, 0x66, 0x55, 0x44, 0x33, 0x22, 0x11] := by decide
theorem test_rmmovq_displacement :
    bytesAfter (machine 0 [(1, 5), (2, 0x100)] [0x40, 0x12, 8, 0, 0, 0, 0, 0, 0, 0]) 0x100 = [5, 0, 0, 0, 0, 0, 0, 0] ∧
    bytesAfter (inDisplaced (machine 0 [(1, 5), (2, 0x100)] [0x40, 0x12, 8, 0, 0, 0, 0, 0, 0, 0])) 0x108 =
      [5, 0, 0, 0, 0, 0, 0, 0] := by decide
theorem test_mrmovq :
    regAfter ((machine 0 [(2, 0x200)] [0x50, 0x22, 0, 0, 0, 0, 0, 0, 0, 0]).loadBytes 0x200 [0x55]) 2 = 0x55 := by decide
theorem test_mrmovq_no_wrap :
    after (machine 0 [(2, 0xFFFFFFFFFFFFFFFC)] [0x50, 0x32, 0, 0, 0, 0, 0, 0, 0, 0]) = some (0, .badAddress) := by decide

/-- W 3.5: the jump `7c 40 …` at pc = 0x10 with flags Z, S, O. -/
def jumped (opcode : Byte) (z sg o : Bool) : Option (Word × Status) :=
  after (withFlags (machine 0x10 [] [opcode, 0x40, 0, 0, 0, 0, 0, 0, 0]) z sg o)

theorem test_jmp : jumped 0x70 true true true = some (0x40, .ok) := by decide
theorem test_jle : jumped 0x71 false true false = some (0x40, .ok) ∧ jumped 0x71 false false false = some (0x19, .ok) := by decide
theorem test_jl : jumped 0x72 false false true = some (0x40, .ok) ∧ jumped 0x72 false true true = some (0x19, .ok) := by decide
theorem test_je : jumped 0x73 true false false = some (0x40, .ok) ∧ jumped 0x73 false true true = some (0x19, .ok) := by decide
theorem test_jne : jumped 0x74 true false false = some (0x19, .ok) ∧ jumped 0x74 false true true = some (0x40, .ok) := by decide
theorem test_jge : jumped 0x75 false true true = some (0x40, .ok) ∧ jumped 0x75 true true false = some (0x19, .ok) := by decide
theorem test_jg : jumped 0x76 true false false = some (0x19, .ok) ∧ jumped 0x76 false false false = some (0x40, .ok) := by decide

theorem test_call :
    after (machine 0x20 [(4, 0x400)] [0x80, 0x80, 0, 0, 0, 0, 0, 0, 0]) = some (0x80, .ok) ∧
    regAfter (machine 0x20 [(4, 0x400)] [0x80, 0x80, 0, 0, 0, 0, 0, 0, 0]) 4 = 0x3F8 ∧
    bytesAfter (machine 0x20 [(4, 0x400)] [0x80, 0x80, 0, 0, 0, 0, 0, 0, 0]) 0x3F8 = [0x29, 0, 0, 0, 0, 0, 0, 0] := by decide
theorem test_call_wraps_below_zero :
    after (machine 0x0A [(4, 4)] [0x80, 0x40, 0, 0, 0, 0, 0, 0, 0]) = some (0x0A, .badAddress) ∧
    regAfter (machine 0x0A [(4, 4)] [0x80, 0x40, 0, 0, 0, 0, 0, 0, 0]) 4 = 4 := by decide
theorem test_ret :
    after ((machine 0x80 [(4, 0x3F8)] [0x90]).loadBytes 0x3F8 [0x29]) = some (0x29, .ok) ∧
    regAfter ((machine 0x80 [(4, 0x3F8)] [0x90]).loadBytes 0x3F8 [0x29]) 4 = 0x400 := by decide
theorem test_ret_reads_itself : after (machine 0 [] [0x90]) = some (0x90, .ok) ∧ regAfter (machine 0 [] [0x90]) 4 = 8 := by
  decide
theorem test_pushq :
    bytesAfter (machine 0 [(4, 0x400), (1, 7)] [0xA0, 0x1F]) 0x3F8 = [7, 0, 0, 0, 0, 0, 0, 0] ∧
    regAfter (machine 0 [(4, 0x400), (1, 7)] [0xA0, 0x1F]) 4 = 0x3F8 := by decide
theorem test_pushq_sp :
    bytesAfter (machine 0 [(4, 0x200)] [0xA0, 0x4F]) 0x1F8 = [0xF8, 0x01, 0, 0, 0, 0, 0, 0] ∧
    bytesAfter (inY86 (machine 0 [(4, 0x200)] [0xA0, 0x4F])) 0x1F8 = [0x00, 0x02, 0, 0, 0, 0, 0, 0] := by decide
theorem test_popq :
    regAfter ((machine 0 [(4, 0x3F8)] [0xB0, 0x2F]).loadBytes 0x3F8 [7]) 2 = 7 ∧
    regAfter ((machine 0 [(4, 0x3F8)] [0xB0, 0x2F]).loadBytes 0x3F8 [7]) 4 = 0x400 := by decide
theorem test_popq_sp :
    regAfter ((machine 0 [(4, 0x200)] [0xB0, 0x4F]).loadBytes 0x200 [0x00, 0x03]) 4 = 0x308 ∧
    regAfter (inY86 ((machine 0 [(4, 0x200)] [0xB0, 0x4F]).loadBytes 0x200 [0x00, 0x03])) 4 = 0x300 := by decide

theorem test_cmov_undefined :
    abortOf (step (machine 0 [] [0x27, 0x12])) = some (0, 7) ∧
    after (machine 0xFFF [] [0x2F]) = some (0xFFF, .badAddress) := by decide
theorem test_jxx_undefined :
    abortOf (step (machine 0x10 [] [0x7F, 0x40, 0, 0, 0, 0, 0, 0, 0])) = some (0x10, 0xF) := by decide
theorem test_op1_undefined : after (machine 0 [] [0x64, 0x12]) = some (1, .badInstruction) := by decide
theorem test_unknown_icode :
    after (machine 0 [] [0xC0]) = some (1, .badInstruction) ∧
    after (machine 0xFFF [] [0xC0]) = some (0x1000, .badInstruction) := by decide

/-! ### The cycle (W 3.8) -/

theorem test_strict_ifun :
    after (machine 0 [] [0x15, 0x00]) = some (1, .ok) ∧
    after (inStrict (machine 0 [] [0x15, 0x00])) = some (1, .badInstruction) := by decide
theorem test_pc_outside_memory :
    after (machine 0xFFF [] [0x10]) = some (0x1000, .ok) ∧ after (machine 0x1000 [] []) = some (0x1000, .badAddress) := by decide
theorem test_operand_byte_outside_memory : after (machine 0xFFF [] [0x60]) = some (0xFFF, .badAddress) := by decide
theorem test_step_renumbered :
    after (inRenumbered (machine 0 [] [0xB0])) = some (0, .halted) ∧
    regAfter (inRenumbered (machine 0 [(1, 7)] [0x93, 0x12])) 2 = 7 ∧
    abortOf (step (inRenumbered (machine 0 [] [0x4F]))) = some (0, 0xF) := by decide
theorem test_target_fetched_when_not_taken :
    after (withFlags (machine 0xFF8 [] [0x74]) true false false) = some (0xFF8, .badAddress) := by decide
theorem test_terminal_is_frozen : step ((machine 0 [] [0x10]).setStatus .badAddress) = .next ((machine 0 [] [0x10]).setStatus .badAddress) :=
  rfl

/-! ### Witnesses: for each obligation with hypotheses, concrete states and operands that meet them, at the edges of each clause -/

/-- An instruction completes in a state, with a property of the next state. -/
theorem exec_witness {i : Instr} {s : State} {P : State → Prop} (h : completes (exec i s) = true) (hp : P (nextState (exec i s))) :
    ∃ t, exec i s = .next t ∧ P t := ⟨_, eq_next h, hp⟩

theorem witness_OverflowFlagIsExactSignedOverflow :
    (∃ t, exec (.addq 1 2) (machine 0 [(1, 1), (2, 0x7FFFFFFFFFFFFFFF)] []) = .next t ∧ t.cc.o = true) ∧
    (∃ t, exec (.addq 1 2) (machine 0 [(1, 1), (2, 0x7FFFFFFFFFFFFFFE)] []) = .next t ∧ t.cc.o = false) ∧
    (∃ t, exec (.subq 1 2) (machine 0 [(1, 1), (2, 0x8000000000000000)] []) = .next t ∧ t.cc.o = true) ∧
    ∃ t, exec (.subq 1 2) (machine 0 [(1, 1), (2, 0x8000000000000001)] []) = .next t ∧ t.cc.o = false :=
  ⟨exec_witness (by decide) (by decide), exec_witness (by decide) (by decide), exec_witness (by decide) (by decide),
    exec_witness (by decide) (by decide)⟩

theorem witness_ConditionFunctions : (7 : Nybble) ≤ 7 ∧ (7 : Nybble) ≤ 15 ∧ ¬ (7 : Nybble) ≤ 6 := by decide

/-- Each of the three cases, under both numberings: LE, and NE, GT and the undefined selectors. -/
theorem witness_SelectorsRunTheSharedRules :
    evaluateCondition defaultConfig 1 ⟨true, false, false⟩ = some true ∧
    evaluateCondition defaultConfig 1 ⟨false, false, false⟩ = some false ∧
    evaluateCondition renumberedConfig 1 ⟨false, false, false⟩ = some true ∧
    evaluateCondition renumberedConfig 6 ⟨false, false, false⟩ = some false ∧
    evaluateCondition defaultConfig 7 ⟨true, true, true⟩ = none ∧
    evaluateCondition renumberedConfig 15 ⟨true, true, true⟩ = none := by decide

theorem witness_ConditionsAfterSubqCompareSigned :
    ∃ t, exec (.subq 1 2) (machine 0 [(1, 0x8000000000000000), (2, 0)] []) = .next t ∧ t.cc = ⟨false, true, true⟩ :=
  exec_witness (by decide) (by decide)

theorem witness_FlagsWrittenByOp1AndReadByCmovAndJxx :
    (Instr.xorq 0 0).mnemonic ∈ ["addq", "subq", "andq", "xorq"] ∧
    ((Instr.je 0x40).mnemonic ∉ ["addq", "subq", "andq", "xorq"] ∧
      ∃ t, exec (.je 0x40) (withFlags (machine 0 [] []) true false false) = .next t ∧ t.pc = 0x40) ∧
    (Instr.pushq 0 1 0xF).mnemonic ∉ ["addq", "subq", "andq", "xorq", "rrmovq", "cmovle", "cmovl", "cmove", "cmovne", "cmovge",
      "cmovg", "jmp", "jle", "jl", "je", "jne", "jge", "jg"] ∧
    ∃ t, exec (.pushq 0 1 0xF) (withFlags (machine 0 [(4, 0x400)] []) true true true) = .next t ∧ t.cc = ⟨true, true, true⟩ :=
  ⟨by decide, ⟨by decide, exec_witness (by decide) (by decide)⟩, by decide, exec_witness (by decide) (by decide)⟩

/-- Each move is a member of the list, taken or not. -/
theorem witness_ConditionalMovesCopyWhenConditionHolds :
    (Instr.cmovg 1 2, (0x26 : Byte), true) ∈
      [(Instr.rrmovq 1 2, (0x20 : Byte), true), (.cmovle 1 2, 0x21, false), (.cmovl 1 2, 0x22, false),
        (.cmove 1 2, 0x23, false), (.cmovne 1 2, 0x24, true), (.cmovge 1 2, 0x25, true), (.cmovg 1 2, 0x26, true)] := by decide

theorem witness_RmmovqStoresWord :
    ((machine 0 [(2, 0xFF8)] []).dataAddress 2 0).toNat + 8 ≤ (machine 0 [(2, 0xFF8)] []).cfg.memSize ∧
    (machine 0 [(2, 0xFF9)] []).cfg.memSize < ((machine 0 [(2, 0xFF9)] []).dataAddress 2 0).toNat + 8 ∧
    ((inDisplaced (machine 0 [(2, 0xFF0)] [])).dataAddress 2 8).toNat + 8 ≤ (machine 0 [(2, 0xFF0)] []).cfg.memSize ∧
    (machine 0 [(2, 0xFFFFFFFFFFFFFFFC)] []).cfg.memSize <
      ((machine 0 [(2, 0xFFFFFFFFFFFFFFFC)] []).dataAddress 2 0).toNat + 8 := by decide

theorem witness_MrmovqLoadsWord :
    ((machine 0 [(15, 0xFF8)] []).dataAddress 15 0).toNat + 8 ≤ (machine 0 [(15, 0xFF8)] []).cfg.memSize ∧
    (machine 0 [(15, 0xFF9)] []).cfg.memSize < ((machine 0 [(15, 0xFF9)] []).dataAddress 15 0).toNat + 8 := by decide

theorem witness_DisplacementCountsOnlyWhenAdded :
    (machine 0 [] []).cfg.addDisplacement = false ∧ (inDisplaced (machine 0 [] [])).cfg.addDisplacement = true := by decide

theorem witness_JumpsSetPcWhenConditionHolds :
    (Instr.jle 0x40, (0x71 : Byte), false) ∈
      [(Instr.jmp 0x40, (0x70 : Byte), true), (.jle 0x40, 0x71, false), (.jl 0x40, 0x72, false), (.je 0x40, 0x73, false),
        (.jne 0x40, 0x74, true), (.jge 0x40, 0x75, true), (.jg 0x40, 0x76, true)] := by decide

/-- The push address in range at both ends of memory, and out of range above it and below zero. -/
theorem witness_CallPushesReturnAddress :
    ((machine 0 [(4, 8)] []).readReg (machine 0 [(4, 8)] []).cfg.spIndex - 8).toNat + 8 ≤ config.memSize ∧
    ((machine 0 [(4, 0x1000)] []).readReg (machine 0 [(4, 0x1000)] []).cfg.spIndex - 8).toNat + 8 ≤ config.memSize ∧
    config.memSize < ((machine 0 [(4, 0x1001)] []).readReg (machine 0 [(4, 0x1001)] []).cfg.spIndex - 8).toNat + 8 ∧
    config.memSize < ((machine 0 [(4, 7)] []).readReg (machine 0 [(4, 7)] []).cfg.spIndex - 8).toNat + 8 := by decide

theorem witness_RetPopsPc :
    ((machine 0 [(4, 0xFF8)] []).readReg (machine 0 [(4, 0xFF8)] []).cfg.spIndex).toNat + 8 ≤ config.memSize ∧
    config.memSize < ((machine 0 [(4, 0xFF9)] []).readReg (machine 0 [(4, 0xFF9)] []).cfg.spIndex).toNat + 8 := by decide

/-- The state the call leaves is itself a state u that kept SP and the word at SP. -/
theorem witness_CallThenRetReturns :
    (machine 0x20 [(4, 0x1000)] []).wordInRange
      ((machine 0x20 [(4, 0x1000)] []).readReg (machine 0x20 [(4, 0x1000)] []).cfg.spIndex - 8).toNat ∧
    ∃ t, exec (.call 0 0x80) (machine 0x20 [(4, 0x1000)] []) = .next t ∧
      ∃ u : State, u.cfg = t.cfg ∧ u.readReg 4 = t.readReg 4 ∧
        u.readWord (t.readReg 4).toNat = t.readWord (t.readReg 4).toNat :=
  ⟨by decide, _, eq_next (by decide), _, rfl, rfl, rfl⟩

/-- In and out of range; the stack pointer under each setting; another register. -/
theorem witness_PushqStoresRegister :
    (((machine 0 [(4, 0x1000)] []).readReg 4 - 8).toNat + 8 ≤ config.memSize ∧
      (4 : RegId) = (machine 0 [(4, 0x1000)] []).cfg.spIndex ∧
      (machine 0 [(4, 0x1000)] []).cfg.spOperandMode = .sequential) ∧
    ((inY86 (machine 0 [(4, 8)] [])).readReg 4 - 8).toNat + 8 ≤ config.memSize ∧
    ¬ ((4 : RegId) = (inY86 (machine 0 [(4, 8)] [])).cfg.spIndex ∧
      (inY86 (machine 0 [(4, 8)] [])).cfg.spOperandMode = .sequential) ∧
    ¬ ((15 : RegId) = (machine 0 [(4, 8)] []).cfg.spIndex ∧ (machine 0 [(4, 8)] []).cfg.spOperandMode = .sequential) ∧
    config.memSize < ((machine 0 [(4, 7)] []).readReg 4 - 8).toNat + 8 := by decide

theorem witness_PopqLoadsRegister :
    ((machine 0 [(4, 0xFF8)] []).readReg 4).toNat + 8 ≤ config.memSize ∧
    (2 : RegId) ≠ (machine 0 [(4, 0xFF8)] []).cfg.spIndex ∧
    (machine 0 [(4, 0xFF8)] []).cfg.spOperandMode = .sequential ∧
    (inY86 (machine 0 [(4, 0xFF8)] [])).cfg.spOperandMode = .y86 ∧
    config.memSize < ((machine 0 [(4, 0xFF9)] []).readReg 4).toNat + 8 := by decide

theorem witness_PushThenPopRestores :
    (machine 0 [(4, 0x1000), (1, 7)] []).wordInRange ((machine 0 [(4, 0x1000), (1, 7)] []).readReg 4 - 8).toNat ∧
    (∃ t, exec (.pushq 0 1 0xF) (machine 0 [(4, 0x1000), (1, 7)] []) = .next t ∧ t.readReg 4 = 0xFF8) ∧
    (∃ t, exec (.pushq 0 4 0xF) (inY86 (machine 0 [(4, 0x1000), (1, 7)] [])) = .next t ∧ t.readReg 4 = 0xFF8) ∧
    (1 : RegId) ≠ (machine 0 [] []).cfg.spIndex ∧ (2 : RegId) ≠ (machine 0 [] []).cfg.spIndex :=
  ⟨by decide, exec_witness (by decide) (by decide), exec_witness (by decide) (by decide), by decide, by decide⟩

/-- One instruction of each group of the table writes a register. -/
theorem witness_RegisterWriteFootprint :
    (∃ t, exec (.cmovge 1 2) (machine 0 [(1, 7)] []) = .next t ∧ t.readReg 2 ≠ (machine 0 [(1, 7)] []).readReg 2) ∧
    (∃ t, exec (.irmovq 0 0xF 2 5) (machine 0 [] []) = .next t ∧ t.readReg 2 ≠ (machine 0 [] []).readReg 2) ∧
    (∃ t, exec (.mrmovq 0 3 2 0) (machine 0 [] [0x50]) = .next t ∧ t.readReg 3 ≠ (machine 0 [] [0x50]).readReg 3) ∧
    (∃ t, exec (.addq 1 2) (machine 0 [(1, 7)] []) = .next t ∧ t.readReg 2 ≠ (machine 0 [(1, 7)] []).readReg 2) ∧
    (∃ t, exec (.call 0 0) (machine 0 [(4, 8)] []) = .next t ∧ t.readReg 4 ≠ (machine 0 [(4, 8)] []).readReg 4) ∧
    ∃ t, exec (.popq 0 1 0xF) (machine 0 [] [0xB0]) = .next t ∧ t.readReg 1 ≠ (machine 0 [] [0xB0]).readReg 1 ∧
      t.readReg 4 ≠ (machine 0 [] [0xB0]).readReg 4 :=
  ⟨exec_witness (by decide) (by decide), exec_witness (by decide) (by decide), exec_witness (by decide) (by decide),
    exec_witness (by decide) (by decide), exec_witness (by decide) (by decide), exec_witness (by decide) (by decide)⟩

/-- The last byte of each store differs. -/
theorem witness_MemoryWriteFootprint :
    (∃ t, exec (.rmmovq 0 1 2 0) (machine 0 [(1, 0x0100000000000000), (2, 0xFF8)] []) = .next t ∧
      t.readByte 0xFFF ≠ (machine 0 [(1, 0x0100000000000000), (2, 0xFF8)] []).readByte 0xFFF) ∧
    (∃ t, exec (.pushq 0 1 0xF) (machine 0 [(1, 0x0100000000000000), (4, 0x1000)] []) = .next t ∧
      t.readByte 0xFFF ≠ (machine 0 [(1, 0x0100000000000000), (4, 0x1000)] []).readByte 0xFFF) ∧
    ∃ t, exec (.call 0 0) (machine 0 [(4, 8)] []) = .next t ∧ t.readByte 0 ≠ (machine 0 [(4, 8)] []).readByte 0 :=
  ⟨exec_witness (by decide) (by decide), exec_witness (by decide) (by decide), exec_witness (by decide) (by decide)⟩

/-- A sequential instruction at the last 64-bit address, a jump taken and one not taken, call and ret. -/
theorem witness_PcMovesByTheEncodedLength :
    (∃ t, exec (.nop 0) (machine 0xFFFFFFFFFFFFFFFF [] []) = .next t ∧ t.status = .ok ∧ t.pc = 0) ∧
    (∃ t, exec (.jne 0x40) (machine 0 [] []) = .next t ∧ t.status = .ok ∧ t.pc = 0x40) ∧
    (∃ t, exec (.je 0x40) (machine 0 [] []) = .next t ∧ t.status = .ok ∧ t.pc = 9) ∧
    (∃ t, exec (.call 0 0x40) (machine 0 [(4, 8)] []) = .next t ∧ t.status = .ok ∧ t.pc = 0x40) ∧
    ∃ t, exec (.ret 0) (machine 0 [] [0x90]) = .next t ∧ t.status = .ok ∧ t.pc = 0x90 :=
  ⟨exec_witness (by decide) (by decide), exec_witness (by decide) (by decide), exec_witness (by decide) (by decide),
    exec_witness (by decide) (by decide), exec_witness (by decide) (by decide)⟩

theorem witness_DecodeEncodeRoundTrip :
    defaultConfig.mapsWf ∧ (Instr.popq 9 7 3).wf defaultConfig.strictIfun = true ∧
    (Instr.cmovUndef8to15 7 0xF 0).wf defaultConfig.strictIfun = true ∧
    renumberedConfig.mapsWf ∧ (Instr.popq 0 7 0xF).wf renumberedConfig.strictIfun = true := by decide

theorem witness_EncodeDecodeRoundTrip :
    defaultConfig.mapsWf ∧ decode defaultConfig [0x15, 0x00] = .ok (.nop 5, [0x00]) ∧
    renumberedConfig.mapsWf ∧ decode renumberedConfig [0x00, 0x7F] = .ok (.popq 0 7 0xF, []) := by decide

/-- The maps at their defaults, and two others. -/
theorem witness_OpcodeByteFollowsTheMaps :
    defaultConfig.mapsWf ∧ renumberedConfig.mapsWf ∧ renumberedConfig.icodeMap ≠ defaultConfig.icodeMap ∧
    renumberedConfig.condMap ≠ defaultConfig.condMap := by decide

theorem witness_EncodingsHaveTheirFormatsLength :
    (Instr.ret 0).mnemonic ∈ ["halt", "nop", "ret"] ∧
    (Instr.popq 0 1 0xF).mnemonic ∈ ["rrmovq", "cmovle", "cmovl", "cmove", "cmovne", "cmovge", "cmovg", "addq", "subq", "andq",
      "xorq", "pushq", "popq"] ∧
    (Instr.call 0 0).mnemonic ∈ ["jmp", "jle", "jl", "je", "jne", "jge", "jg", "call"] ∧
    (Instr.mrmovq 0 1 2 0).mnemonic ∈ ["irmovq", "rmmovq", "mrmovq"] := by decide

theorem witness_EveryOpcodeByteDecodesToItsRow : 9 ≤ ([0, 0, 0, 0, 0, 0, 0, 0, 0] : List Byte).length := by decide

/-- At address 0 and at the last byte of memory. -/
theorem witness_StepRunsTheDecodedInstruction :
    (machine 0 [] [0x10]).status = .ok ∧
    decode config (machine 0 [] [0x10]).codeBytes = .ok (.nop 0, [0, 0, 0, 0, 0, 0, 0, 0, 0]) ∧
    (machine 0xFFF [] [0x90]).status = .ok ∧ decode config (machine 0xFFF [] [0x90]).codeBytes = .ok (.ret 0, []) := by
  decide

theorem witness_StepOnUndecodableBytes :
    (machine 0xFFF [] [0x60]).status = .ok ∧ decode config (machine 0xFFF [] [0x60]).codeBytes = .error .truncated ∧
    decode (inStrict (machine 0xFFF [] [0x9F])).cfg (inStrict (machine 0xFFF [] [0x9F])).codeBytes =
      .error (.nonzeroIfun 9 0xF) := by decide

theorem witness_TerminalStatusIsFrozen :
    ((machine 0 [] []).setStatus .halted).status ≠ .ok ∧ ((machine 0 [] []).setStatus .badAddress).status ≠ .ok ∧
    ((machine 0 [] []).setStatus .badInstruction).status ≠ .ok := by decide

theorem witness_PcOutOfRangeIsBadAddress :
    (machine 0x1000 [] []).status = .ok ∧ (machine 0x1000 [] []).cfg.memSize ≤ (machine 0x1000 [] []).pc.toNat ∧
    ¬ (machine 0xFFF [] []).cfg.memSize ≤ (machine 0xFFF [] []).pc.toNat := by decide

/-- The hypotheses of OperandBytesOutOfRangeAreBadAddress at a state, an opcode byte and a length. -/
def RunsPast (s : State) (b : Byte) (length : Nat) : Prop :=
  s.status = .ok ∧ s.readByte s.pc.toNat = some b ∧
    (length = 2 ∧ s.cfg.icodeMap[(b.extractLsb' 4 4).toNat]? ∈ [some .cmov, some .pushq, some .popq] ∨
      length = 2 ∧ s.cfg.icodeMap[(b.extractLsb' 4 4).toNat]? = some .op1 ∧ b.extractLsb' 0 4 ≤ 3 ∨
      length = 9 ∧ s.cfg.icodeMap[(b.extractLsb' 4 4).toNat]? ∈ [some .jxx, some .call] ∨
      length = 10 ∧ s.cfg.icodeMap[(b.extractLsb' 4 4).toNat]? ∈ [some .irmovq, some .rmmovq, some .mrmovq]) ∧
    (s.cfg.strictIfun = true → s.cfg.icodeMap[(b.extractLsb' 4 4).toNat]? ∉ [some .cmov, some .op1, some .jxx] →
      b.extractLsb' 0 4 = 0) ∧
    s.cfg.memSize < s.pc.toNat + length

/-- One byte short, in each of the four cases, both settings of STRICT_IFUN, both numberings, an undefined selector among them. -/
theorem witness_OperandBytesOutOfRangeAreBadAddress :
    RunsPast (machine 0xFFF [] [0x2F]) 0x2F 2 ∧ RunsPast (inStrict (machine 0xFFF [] [0xB0])) 0xB0 2 ∧
    RunsPast (machine 0xFFF [] [0x63]) 0x63 2 ∧ RunsPast (machine 0xFF8 [] [0x77]) 0x77 9 ∧
    RunsPast (inStrict (machine 0xFF7 [] [0x30])) 0x30 10 ∧ RunsPast (machine 0xFF7 [] [0x5F]) 0x5F 10 ∧
    RunsPast (inRenumbered (machine 0xFFF [] [0x53])) 0x53 2 := by
  refine ⟨?_, ?_, ?_, ?_, ?_, ?_, ?_⟩ <;> exact ⟨by decide, by decide, by decide, by decide, by decide⟩

theorem witness_UnrecognisedIcodeIsBadInstruction :
    (machine 0xFFF [] [0xC0]).status = .ok ∧ (machine 0xFFF [] [0xC0]).readByte 0xFFF = some 0xC0 ∧
    0xC ≤ (0xC0 : Byte).extractLsb' 4 4 ∧ 0xC ≤ (0xFF : Byte).extractLsb' 4 4 ∧ ¬ 0xC ≤ (0xBF : Byte).extractLsb' 4 4 := by decide

theorem witness_UndefinedOp1FunctionIsBadInstruction :
    (machine 0xFFF [] [0x64]).status = .ok ∧ (machine 0xFFF [] [0x64]).readByte 0xFFF = some 0x64 ∧
    config.icodeMap[((0x64 : Byte).extractLsb' 4 4).toNat]? = some .op1 ∧ 4 ≤ (0x64 : Byte).extractLsb' 0 4 ∧
    config.icodeMap[((0x6F : Byte).extractLsb' 4 4).toNat]? = some .op1 ∧ ¬ 4 ≤ (0x63 : Byte).extractLsb' 0 4 ∧
    renumberedConfig.icodeMap[((0x54 : Byte).extractLsb' 4 4).toNat]? = some .op1 := by decide

theorem witness_StrictIfunRefusesNonzeroIfun :
    (inStrict (machine 0xFFF [] [0xB1])).status = .ok ∧ (inStrict (machine 0xFFF [] [0xB1])).cfg.strictIfun = true ∧
    (inStrict (machine 0xFFF [] [0xB1])).readByte 0xFFF = some 0xB1 ∧
    config.icodeMap[((0xB1 : Byte).extractLsb' 4 4).toNat]? = some .popq ∧ (0xB1 : Byte).extractLsb' 0 4 ≠ 0 ∧
    config.icodeMap[((0x0F : Byte).extractLsb' 4 4).toNat]? = some .halt ∧ (0x0F : Byte).extractLsb' 0 4 ≠ 0 := by decide

theorem witness_ReservedRowsRaiseBadInstruction :
    Instr.op1Undef8to15 7 = .op1Undef4to7 2 ∨ Instr.op1Undef8to15 7 = .op1Undef8to15 7 ∨
      Instr.op1Undef8to15 7 = .unknownIcode 2 0 := by decide

/-- Both sides hold at the last place that still holds the whole instruction. -/
theorem witness_FatalAbortExactlyOnUndefinedSelectors :
    (step (machine 0xFFE [] [0x27, 0x12]) = .fault (.fatalAbort 0xFFE 7) ∧
      (machine 0xFFE [] [0x27, 0x12]).readByte 0xFFE = some 0x27 ∧
      config.icodeMap[((0x27 : Byte).extractLsb' 4 4).toNat]? = some .cmov) ∧
    step (machine 0xFF7 [] [0x7F]) = .fault (.fatalAbort 0xFF7 0xF) ∧
      (machine 0xFF7 [] [0x7F]).readByte 0xFF7 = some 0x7F ∧
      config.icodeMap[((0x7F : Byte).extractLsb' 4 4).toNat]? = some .jxx :=
  ⟨⟨eq_fault (by decide), by decide, by decide⟩, eq_fault (by decide), by decide, by decide⟩

/-- A step from status OK to each terminal status. -/
theorem witness_TerminalStepsWriteOnlyStatus :
    (∃ t, step (machine 0 [] [0x00]) = .next t ∧ t.status = .halted) ∧
    (∃ t, step (machine 0 [(2, 0xFF9)] [0x40, 0x12, 0, 0, 0, 0, 0, 0, 0, 0]) = .next t ∧ t.status = .badAddress) ∧
    (∃ t, step (machine 0 [] [0xC0]) = .next t ∧ t.status = .badInstruction) ∧
    (machine 0 [] [0x00]).status = .ok ∧ (machine 0 [] [0xC0]).status = .ok :=
  ⟨⟨_, eq_next (by decide), by decide⟩, ⟨_, eq_next (by decide), by decide⟩, ⟨_, eq_next (by decide), by decide⟩, by decide,
    by decide⟩

theorem witness_CausesOfHaltedAndBadInstruction :
    (∃ t, step (inStrict (machine 0 [] [0x00])) = .next t ∧ t.status = .halted) ∧
    (∃ t, step (machine 0 [] [0x0F]) = .next t ∧ t.status = .halted) ∧
    (∃ t, step (inStrict (machine 0 [] [0x0F])) = .next t ∧ t.status = .badInstruction) ∧
    (∃ t, step (machine 0 [] [0x64]) = .next t ∧ t.status = .badInstruction) ∧
    ∃ t, step (machine 0 [] [0x10]) = .next t ∧ t.status = .ok :=
  ⟨⟨_, eq_next (by decide), by decide⟩, ⟨_, eq_next (by decide), by decide⟩, ⟨_, eq_next (by decide), by decide⟩,
    ⟨_, eq_next (by decide), by decide⟩, _, eq_next (by decide), by decide⟩

/-- A state with the invariant whose step stores to memory. -/
theorem witness_StepKeepsInvariant :
    State.Inv (machine 0 [(1, 7), (4, 0x1000)] [0xA0, 0x1F]) ∧
    ∃ t, step (machine 0 [(1, 7), (4, 0x1000)] [0xA0, 0x1F]) = .next t ∧ t.mem.length = 3 :=
  ⟨⟨by decide, by decide, by decide⟩, _, eq_next (by decide), by decide⟩

theorem witness_InvariantHoldsAtLaunch :
    config.wf ∧ Memory.wf [(0, 0x10), (0xFFF, 0x90)] ∧ ∀ c ∈ ([(0, 0x10), (0xFFF, 0x90)] : Memory), c.1 < config.memSize := by
  decide

theorem witness_ParametersNeverChange : ∃ t, step (inY86 (machine 0 [] [0x10])) = .next t ∧ t.pc = 1 :=
  ⟨_, eq_next (by decide), by decide⟩

/-- nop, then halt. -/
theorem witness_RunsThatEndWellNeverFault : EndsWell (machine 0 [] [0x10]) :=
  ⟨2, (nextState (step (nextState (step (machine 0 [] [0x10]))))), by
    have h1 : core.step (machine 0 [] [0x10]) = .next (nextState (step (machine 0 [] [0x10]))) :=
      eq_next (o := step (machine 0 [] [0x10])) (by decide)
    have h2 : core.step (nextState (step (machine 0 [] [0x10]))) =
        .next (nextState (step (nextState (step (machine 0 [] [0x10]))))) :=
      eq_next (o := step (nextState (step (machine 0 [] [0x10])))) (by decide)
    simp only [Host.Core.run, h1, h2], by decide⟩

/-- The last ten bytes of memory; a status other than OK is no obstacle. -/
theorem witness_PlacedInstructionRunsNext :
    (machine 0xFF6 [] []).pc.toNat + 10 ≤ (machine 0xFF6 [] []).cfg.memSize ∧
    decode (machine 0xFF6 [] []).cfg (tableBytes 16 0x1220) = .ok (.rrmovq 1 2, [0, 0, 0, 0, 0, 0, 0, 0]) := by decide

theorem witness_WordsAreLittleEndianBytes :
    (∃ t, (machine 0 [] []).writeWord 0xFF8 0x1122334455667788 = some t ∧ t.readWord 0xFF8 = some 0x1122334455667788) ∧
    (machine 0 [] []).readWord 0xFF8 = some 0 ∧ (machine 0 [] []).writeWord 0xFF9 1 = none := by
  refine ⟨⟨_, rfl, by decide⟩, by decide, by decide⟩

theorem witness_AccessesSucceedExactlyInRange :
    ((machine 0 [] []).readByte 0xFFF).isSome = true ∧ ((machine 0 [] []).readByte 0x1000).isSome = false ∧
    ((machine 0 [] []).readWord 0xFF8).isSome = true ∧ ((machine 0 [] []).readWord 0xFF9).isSome = false := by decide

theorem witness_CanonicalMemoriesThatReadAlikeAreEqual :
    Memory.wf (Memory.write (Memory.write [] 5 1) 3 2) ∧ Memory.wf [(3, 2), (5, 1)] ∧
    ∀ a, Memory.read (Memory.write (Memory.write [] 5 1) 3 2) a = Memory.read [(3, 2), (5, 1)] a :=
  ⟨by decide, by decide, fun _ => rfl⟩

/-- rmmovq at 0 stores `10` (nop) at 10, where the next fetch is. -/
theorem witness_StoreIsSeenByTheNextFetch :
    (machine 0 [(1, 0x10), (2, 10)] []).status = .ok ∧
    (∃ t, exec (.rmmovq 0 1 2 0) (machine 0 [(1, 0x10), (2, 10)] []) = .next t ∧ t.status = .ok) ∧
    (machine 0 [(1, 0x10), (2, 10)] []).dataAddress 2 0 = (machine 0 [(1, 0x10), (2, 10)] []).pc + 10 ∧
    decode config (wordBytes ((machine 0 [(1, 0x10), (2, 10)] []).readReg 1)) =
      .ok (.nop 0, [0, 0, 0, 0, 0, 0, 0]) :=
  ⟨by decide, exec_witness (by decide) (by decide), by decide, by decide⟩

theorem witness_LaunchStartsAtEntryWithStatusOk : 0xFFF < config.memSize ∧ ¬ 0x1000 < config.memSize := by decide

theorem witness_ResetTakesTheNamedValues : 2 ^ 64 - 1 < 2 ^ 64 := by decide

/-- The number clauses exclude each other at their edges. -/
theorem witness_HostPortNumbersAndPacking :
    (1 = 1 ∨ 1 = 2 ∨ 1 = 3 ∨ 1 = 4) ∧ (4 = 1 ∨ 4 = 2 ∨ 4 = 3 ∨ 4 = 4) ∧ (0 = 0 ∨ 4 < 0) ∧ (5 = 0 ∨ 4 < 5) ∧
    ¬ (4 = 0 ∨ 4 < 4) ∧ ¬ (1 = 0 ∨ 4 < 1) := by decide

/-- A launch state of a small image with a stack above it (70_reset_and_hazards.md R292). -/
theorem witness_CleanLaunch : CleanLaunch (machine 0 [(4, 0x400)] [0x10, 0x90]) [0x10, 0x90] 0 0x200 0x400 where
  inv := ⟨by decide, by decide, by decide⟩
  running := by decide
  atEntry := by decide
  imageInRange := by decide
  imageLoaded := by decide
  stackInRange := by decide
  stackDisjoint := by decide

end Sys2Proof.Tests
end

section
/-! SUPPORT. Which instructions write and read the flags (10_state.md R31). The idea: an instruction outside OP1, CMOVxx and Jxx commutes
with `State.writeFlags`, and rewriting the flags a state has already shows that such an instruction leaves them. -/

namespace Sys2Proof.Machine

/-- The instructions that write the flags. -/
def op1Mnemonics : List String := ["addq", "subq", "andq", "xorq"]

/-- The instructions whose rule names the flags: OP1, and CMOVxx and Jxx with a defined condition. -/
def flagMnemonics : List String :=
  op1Mnemonics ++ ["rrmovq", "cmovle", "cmovl", "cmove", "cmovne", "cmovge", "cmovg",
    "jmp", "jle", "jl", "je", "jne", "jge", "jg"]

/-! ### The flag-blind meanings -/

/-- A meaning that completes in the same next state, but for the flags it carries along, whatever the flags are. -/
def FlagBlind (m : State → Host.Outcome State Fault Refusal) : Prop :=
  ∀ s t f, m s = .next t → m (s.writeFlags f) = .next (t.writeFlags f)

/-- A flag-blind meaning leaves the flags: take the flags the state has already. -/
theorem FlagBlind.cc_eq {m : State → Host.Outcome State Fault Refusal} (hm : FlagBlind m) {s t : State} (h : m s = .next t) :
    t.cc = s.cc := by
  have hs : m s = .next (t.writeFlags s.cc) := hm s t s.cc h
  have ht : t = t.writeFlags s.cc := Host.Outcome.next.inj (h.symm.trans hs)
  rw [ht, State.writeFlags_cc]

theorem flagBlind_next {g : State → State} (hg : ∀ s f, g (s.writeFlags f) = (g s).writeFlags f) :
    FlagBlind (fun s => .next (g s)) := by
  intro s t f h
  cases h
  exact congrArg Host.Outcome.next (hg s f)

theorem flagBlind_raiseFatal (sel : Nybble) : FlagBlind (fun s => raiseFatal s.pc sel) := by
  intro s t f h
  cases h

/-- An instruction with one word access is flag-blind when the accessed address and both results are: `g` in range, and BAD_ADDRESS
out of range. -/
theorem flagBlind_of_wordAccess {m : State → Host.Outcome State Fault Refusal} {addr : State → Nat} {g : State → State}
    (hin : ∀ s, s.wordInRange (addr s) → m s = .next (g s))
    (hout : ∀ s, ¬ s.wordInRange (addr s) → m s = .next (raiseBadAddress (addr s) s))
    (haddr : ∀ s f, addr (s.writeFlags f) = addr s)
    (hg : ∀ s f, g (s.writeFlags f) = (g s).writeFlags f) : FlagBlind m := by
  intro s t f h
  have hrange : (s.writeFlags f).wordInRange (addr (s.writeFlags f)) ↔ s.wordInRange (addr s) := by
    simp only [State.wordInRange, State.writeFlags_cfg, haddr]
  by_cases hw : s.wordInRange (addr s)
  · obtain rfl : g s = t := Host.Outcome.next.inj ((hin s hw).symm.trans h)
    rw [hin _ (hrange.mpr hw), hg]
  · obtain rfl : raiseBadAddress (addr s) s = t := Host.Outcome.next.inj ((hout s hw).symm.trans h)
    rw [hout _ (mt hrange.mp hw)]
    rfl

theorem execRmmovq_flagBlind (x : Nybble) (rA rB : RegId) (d : Word) : FlagBlind (execRmmovq x rA rB d) :=
  flagBlind_of_wordAccess (fun _ => execRmmovq_of_inRange x rA) (fun _ => execRmmovq_of_outOfRange x rA)
    (fun _ _ => rfl) (fun _ _ => rfl)

theorem execMrmovq_flagBlind (x : Nybble) (rA rB : RegId) (d : Word) : FlagBlind (execMrmovq x rA rB d) :=
  flagBlind_of_wordAccess (fun _ => execMrmovq_of_inRange x rA) (fun _ => execMrmovq_of_outOfRange x rA)
    (fun _ _ => rfl) (fun _ _ => rfl)

theorem execCall_flagBlind (x : Nybble) (d : Word) : FlagBlind (execCall x d) :=
  flagBlind_of_wordAccess (fun _ => execCall_of_inRange x d) (fun _ => execCall_of_outOfRange x d)
    (fun _ _ => rfl) (fun _ _ => rfl)

theorem execRet_flagBlind (x : Nybble) : FlagBlind (execRet x) :=
  flagBlind_of_wordAccess (fun _ => execRet_of_inRange x) (fun _ => execRet_of_outOfRange x)
    (fun _ _ => rfl) (fun _ _ => rfl)

theorem execPushq_flagBlind (x : Nybble) (rA : RegId) (y : Nybble) : FlagBlind (execPushq x rA y) :=
  flagBlind_of_wordAccess (fun _ => execPushq_of_inRange x rA y) (fun _ => execPushq_of_outOfRange x rA y)
    (fun _ _ => rfl) (fun _ _ => rfl)

theorem State.writeFlags_popInto (s : State) (f : Flags) (rA : RegId) (v : Word) :
    (s.writeFlags f).popInto rA v = (s.popInto rA v).writeFlags f := by
  simp only [State.popInto, State.writeFlags_cfg]
  cases s.cfg.spOperandMode <;> rfl

theorem execPopq_flagBlind (x : Nybble) (rA : RegId) (y : Nybble) : FlagBlind (execPopq x rA y) :=
  flagBlind_of_wordAccess (fun _ => execPopq_of_inRange x rA y) (fun _ => execPopq_of_outOfRange x rA y)
    (fun _ _ => rfl) (fun s f => congrArg (State.advance · 2) (s.writeFlags_popInto f rA _))

/-! ### The meanings that name the flags -/

/-- OP1 reads no flag and replaces all three (R151). -/
theorem op1_writeFlags (alu : Word → Word → Word × Flags) (rA rB : RegId) (s : State) (f : Flags) :
    op1 alu rA rB (s.writeFlags f) = op1 alu rA rB s := rfl

theorem conditionalMove_cc {c : Cond} {rA rB : RegId} {s t : State} (h : conditionalMove c rA rB s = .next t) : t.cc = s.cc := by
  cases h
  rw [State.advance_cc]
  split
  · exact State.writeReg_cc ..
  · rfl

theorem conditionalJump_cc {c : Cond} {d : Word} {s t : State} (h : conditionalJump c d s = .next t) : t.cc = s.cc := by
  cases h
  split
  · exact State.setPc_cc ..
  · exact State.advance_cc ..

/-! ### The instructions -/

theorem exec_writeFlags_of_op1 {i : Instr} (hi : i.mnemonic ∈ op1Mnemonics) (s : State) (f : Flags) :
    exec i (s.writeFlags f) = exec i s := by
  cases i with
  | addq rA rB | subq rA rB | andq rA rB | xorq rA rB => exact op1_writeFlags _ rA rB s f
  | _ => simp [Instr.mnemonic, op1Mnemonics] at hi

theorem exec_flagBlind {i : Instr} (hi : i.mnemonic ∉ flagMnemonics) : FlagBlind (exec i) := by
  cases i with
  | halt | nop | irmovq | op1Undef4to7 | op1Undef8to15 | unknownIcode => exact flagBlind_next fun _ _ => rfl
  | cmovUndef7 | cmovUndef8to15 | jxxUndef7 | jxxUndef8to15 => exact flagBlind_raiseFatal _
  | rmmovq x rA rB d => exact execRmmovq_flagBlind x rA rB d
  | mrmovq x rA rB d => exact execMrmovq_flagBlind x rA rB d
  | call x d => exact execCall_flagBlind x d
  | ret x => exact execRet_flagBlind x
  | pushq x rA y => exact execPushq_flagBlind x rA y
  | popq x rA y => exact execPopq_flagBlind x rA y
  | _ => simp [Instr.mnemonic, flagMnemonics, op1Mnemonics] at hi

theorem exec_cc_of_not_op1 {i : Instr} (hi : i.mnemonic ∉ op1Mnemonics) {s t : State} (h : exec i s = .next t) :
    t.cc = s.cc := by
  cases i with
  | rrmovq | cmovle | cmovl | cmove | cmovne | cmovge | cmovg => exact conditionalMove_cc h
  | jmp | jle | jl | je | jne | jge | jg => exact conditionalJump_cc h
  | addq | subq | andq | xorq => simp [Instr.mnemonic, op1Mnemonics] at hi
  | _ => exact (exec_flagBlind (by simp [Instr.mnemonic, flagMnemonics, op1Mnemonics])).cc_eq h

/-- Settles O8: OP1 ignores the old flags, every other instruction leaves them, and an instruction that is not OP1, CMOVxx or Jxx
commutes with writing them. -/
theorem flagsWrittenByOp1AndReadByCmovAndJxx : Obligations.FlagsWrittenByOp1AndReadByCmovAndJxx := by
  intro i s f
  refine ⟨fun hi => ?_, fun hi t h => ?_, fun hi t h => ?_⟩
  · exact exec_writeFlags_of_op1 hi s f
  · exact exec_cc_of_not_op1 hi h
  · exact exec_flagBlind hi s t f h

end Sys2Proof.Machine
end

section
/-! SUPPORT. Encoded lengths and unrecognised icodes (30_encoding.md R70, R80). -/

namespace Sys2Proof

/-! ### The length of each format's bytes (R70) -/

theorem encodeF1_length (cfg : Config) (c : IClass) (ifun : Nybble) : (encodeF1 cfg c ifun).length = 1 := rfl

theorem encodeF2_length (cfg : Config) (c : IClass) (ifun rA rB : Nybble) : (encodeF2 cfg c ifun rA rB).length = 2 := rfl

theorem encodeF9_length (cfg : Config) (c : IClass) (ifun : Nybble) (v : Word) : (encodeF9 cfg c ifun v).length = 9 := by
  rw [encodeF9, List.length_cons, wordBytes_length]

theorem encodeF10_length (cfg : Config) (c : IClass) (ifun rA rB : Nybble) (v : Word) :
    (encodeF10 cfg c ifun rA rB v).length = 10 := by
  rw [encodeF10, List.length_cons, List.length_cons, wordBytes_length]

/-- Settles O30: the mnemonics of each clause leave the constructors that one format encodes. -/
theorem encodingsHaveTheirFormatsLength : Obligations.EncodingsHaveTheirFormatsLength := by
  intro cfg i
  refine ⟨fun hi => ?_, fun hi => ?_, fun hi => ?_, fun hi => ?_⟩
  · cases i with
    | halt | nop | ret => exact encodeF1_length ..
    | _ => simp [Instr.mnemonic] at hi
  · cases i with
    | rrmovq | cmovle | cmovl | cmove | cmovne | cmovge | cmovg => exact encodeF2_length ..
    | addq | subq | andq | xorq | pushq | popq => exact encodeF2_length ..
    | _ => simp [Instr.mnemonic] at hi
  · cases i with
    | jmp | jle | jl | je | jne | jge | jg | call => exact encodeF9_length ..
    | _ => simp [Instr.mnemonic] at hi
  · cases i with
    | irmovq | rmmovq | mrmovq => exact encodeF10_length ..
    | _ => simp [Instr.mnemonic] at hi

/-! ### Unrecognised icodes (R80) -/

/-- The opcode byte is the whole instruction, so no operand byte is asked for. -/
theorem decodeOpcode_of_unrecognised (cfg : Config) {b : Byte} (h : 12 ≤ nybble b 1) :
    decodeOpcode cfg b = .whole (.unknownIcode ((nybble b 1).extractLsb' 0 2) (nybble b 0)) := by
  have hclass : classOf cfg (nybble b 1) = none := (classOf_none_iff cfg _).mpr h
  simp only [decodeOpcode, hclass]

namespace Machine

theorem fetchInstr_of_unrecognised {s : State} {b : Byte} (hb : s.readByte s.pc.toNat = some b) (h : 12 ≤ nybble b 1) :
    s.fetchInstr = .instr (.unknownIcode ((nybble b 1).extractLsb' 0 2) (nybble b 0)) := by
  rw [fetchInstr_of_readByte hb, decodeOpcode_of_unrecognised s.cfg h]

theorem exec_unknownIcode (low : BitVec 2) (ifun : Nybble) (s : State) :
    exec (.unknownIcode low ifun) s = .next (raiseBadInstruction s) := rfl

theorem raiseBadInstruction_eq (s : State) :
    raiseBadInstruction s = { s with status := .badInstruction, pc := s.pc + 1 } := rfl

/-- Settles O38: the step fetches the unrecognised row from its one byte, and that row raises BAD_INSTRUCTION. -/
theorem unrecognisedIcodeIsBadInstruction : Obligations.UnrecognisedIcodeIsBadInstruction := by
  intro s b hok hb hicode
  have hfetch := fetchInstr_of_unrecognised hb hicode
  rw [step_of_ok hok, stepRunning_instr hfetch, exec_unknownIcode, raiseBadInstruction_eq]

end Machine

end Sys2Proof
end

section
/-! SUPPORT. Terminal statuses under any number of steps (40_cycle.md R101). -/

namespace Sys2Proof.Machine

/-- A fixed point of the step is where any number of steps stays. -/
theorem run_of_step_self {s : State} (h : step s = .next s) (k : Nat) : Host.Core.run core k s = .next s := by
  have hcore : core.step s = .next s := h
  induction k with
  | zero => rfl
  | succ k ih => simp only [Host.Core.run, hcore, ih]

/-- Settles O35: a terminal status makes the state a fixed point of the step, and so of every run. -/
theorem terminalStatusIsFrozen : Obligations.TerminalStatusIsFrozen := by
  intro s hs
  have hstep : step s = .next s := step_of_terminal hs
  exact ⟨hstep, run_of_step_self hstep⟩

end Sys2Proof.Machine
end

section
/-! SUPPORT. The condition selectors: their values at the default map (41_condition_codes.md R135), and the abort of the rows whose
selector is undefined (R136, R265). -/

namespace Sys2Proof.Machine

/-! ### Values of the selectors -/

/-- `COND_MAP` at its default, read at each defined selector (R134, decision D2). -/
theorem condOf_defaultConfig :
    condOf defaultConfig 0 = some .always ∧ condOf defaultConfig 1 = some .le ∧ condOf defaultConfig 2 = some .lt ∧
    condOf defaultConfig 3 = some .eq ∧ condOf defaultConfig 4 = some .ne ∧ condOf defaultConfig 5 = some .ge ∧
    condOf defaultConfig 6 = some .gt := by decide

/-- Settles O6: each defined selector evaluates the condition that the default map gives it; a selector from 7 on lies outside every
map. -/
theorem conditionFunctions : Obligations.ConditionFunctions := by
  intro f
  obtain ⟨halways, hle, hlt, heq, hne, hge, hgt⟩ := condOf_defaultConfig
  exact ⟨evaluateCondition_some halways f, evaluateCondition_some hle f, evaluateCondition_some hlt f,
    evaluateCondition_some heq f, evaluateCondition_some hne f, evaluateCondition_some hge f, evaluateCondition_some hgt f,
    fun cfg sel hsel => (evaluateCondition_none_iff cfg sel f).mpr hsel⟩

/-! ### The rows with an undefined selector -/

theorem exec_cmovUndef7 (rA rB : RegId) (s : State) : exec (.cmovUndef7 rA rB) s = raiseFatal s.pc 7 := rfl

theorem exec_cmovUndef8to15 (low : BitVec 3) (rA rB : RegId) (s : State) :
    exec (.cmovUndef8to15 low rA rB) s = raiseFatal s.pc (eightPlus low) := rfl

theorem exec_jxxUndef7 (dest : Word) (s : State) : exec (.jxxUndef7 dest) s = raiseFatal s.pc 7 := rfl

theorem exec_jxxUndef8to15 (low : BitVec 3) (dest : Word) (s : State) :
    exec (.jxxUndef8to15 low dest) s = raiseFatal s.pc (eightPlus low) := rfl

/-- The selector whose high bit is set and whose other bits are `low` is the number 8 + low. -/
theorem eightPlus_eq_ofNat (low : BitVec 3) : eightPlus low = BitVec.ofNat 4 (8 + low.toNat) := by
  revert low
  decide

theorem raiseFatal_eightPlus (pc : Word) (low : BitVec 3) :
    raiseFatal pc (eightPlus low) = .fault (.fatalAbort pc (BitVec.ofNat 4 (8 + low.toNat))) := by
  rw [raiseFatal, eightPlus_eq_ofNat]

/-- Settles O9: each of the four rows raises the fatal abort with its own selector, whatever its operands and the state. -/
theorem undefinedSelectorsAbort : Obligations.UndefinedSelectorsAbort := by
  intro rA rB dest low s
  refine ⟨?_, ?_, ?_, ?_⟩
  · rw [exec_cmovUndef7, raiseFatal]
  · rw [exec_cmovUndef8to15, raiseFatal_eightPlus]
  · rw [exec_jxxUndef7, raiseFatal]
  · rw [exec_jxxUndef8to15, raiseFatal_eightPlus]

end Sys2Proof.Machine
end

section
/-! SUPPORT. The OP1 family (42_alu_op1.md R150-R163): the shared rule completes in every state, whatever the ALU function, and what is
left of each instruction is its overflow flag and its encoding. -/

namespace Sys2Proof.Machine

/-! ### The flags of a result -/

theorem sign_eq_getLsbD (v : Word) : sign v = v.getLsbD 63 := BitVec.msb_eq_getLsbD_last v

theorem resultFlags_z_iff (r : Word) (overflow : Bool) : (resultFlags r overflow).z = true ↔ r = 0 := beq_iff_eq

theorem resultFlags_s (r : Word) (overflow : Bool) : (resultFlags r overflow).s = r.getLsbD 63 := sign_eq_getLsbD r

/-- R154, in bits 63. -/
theorem addOverflow_iff (opA opB r : Word) :
    addOverflow opA opB r = true ↔ opA.getLsbD 63 = opB.getLsbD 63 ∧ r.getLsbD 63 ≠ opA.getLsbD 63 := by
  simp only [addOverflow, sign_eq_getLsbD, Bool.and_eq_true, beq_iff_eq, bne_iff_ne]

/-- R155, in bits 63; opA is the subtrahend. -/
theorem subOverflow_iff (opA opB r : Word) :
    subOverflow opA opB r = true ↔ opA.getLsbD 63 ≠ opB.getLsbD 63 ∧ r.getLsbD 63 = opA.getLsbD 63 := by
  simp only [subOverflow, sign_eq_getLsbD, Bool.and_eq_true, beq_iff_eq, bne_iff_ne]

/-! ### The shared rule (R151) -/

/-- OP1 completes in every state. An ALU function that gives the result v with the overflow o leaves v in rB and v's flags with o, moves
pc by 2, and changes nothing else. -/
theorem op1_completes {alu : Word → Word → Word × Flags} {rA rB : RegId} {s : State} {v : Word} {o : Bool}
    (halu : alu (s.readReg rA) (s.readReg rB) = (v, resultFlags v o)) :
    ∃ t, op1 alu rA rB s = .next t ∧
      t.readReg rB = v ∧ (t.cc.z = true ↔ v = 0) ∧ t.cc.s = v.getLsbD 63 ∧ t.cc.o = o ∧
      t.pc = s.pc + 2 ∧ (∀ r, r ≠ rB → t.readReg r = s.readReg r) ∧
      (∀ a, t.readByte a = s.readByte a) ∧ t.status = s.status ∧ t.cfg = s.cfg := by
  refine ⟨((s.writeReg rB v).writeFlags (resultFlags v o)).advance 2, by rw [op1, halu], ?_, resultFlags_z_iff v o,
    resultFlags_s v o, rfl, rfl, fun r hr => ?_, fun _ => rfl, rfl, rfl⟩
  · exact s.writeReg_readReg_same rB v
  · exact s.writeReg_readReg_ne rB r v hr

/-! ### The instructions -/

/-- The bytes of an OP1 instruction at the default `ICODE_MAP`: icode 6 (R75, R76). -/
theorem encodeF2_op1_defaultConfig (ifun rA rB : Nybble) :
    encodeF2 defaultConfig .op1 ifun rA rB = [byteOfNybbles 6 ifun, rA ++ rB] := rfl

/-- Settles O1: the shared rule with R154's result, whose overflow is addOverflow. -/
theorem addqWritesSumAndAllFlags : Obligations.AddqWritesSumAndAllFlags := by
  intro rA rB s
  obtain ⟨t, ht, hres, hz, hs, ho, hframe⟩ := op1_completes (alu := aluAdd) (rA := rA) (rB := rB) (s := s) rfl
  exact ⟨encodeF2_op1_defaultConfig 0 rA rB, t, ht, hres, hz, hs, ho ▸ addOverflow_iff .., hframe⟩

/-- Settles O2: the shared rule with R155's result, whose overflow is subOverflow. -/
theorem subqWritesDifferenceAndAllFlags : Obligations.SubqWritesDifferenceAndAllFlags := by
  intro rA rB s
  obtain ⟨t, ht, hres, hz, hs, ho, hframe⟩ := op1_completes (alu := aluSubtract) (rA := rA) (rB := rB) (s := s) rfl
  exact ⟨encodeF2_op1_defaultConfig 1 rA rB, t, ht, hres, hz, hs, ho ▸ subOverflow_iff .., hframe⟩

/-- Settles O3: the shared rule with R156's result, which has no overflow. -/
theorem andqWritesConjunctionAndAllFlags : Obligations.AndqWritesConjunctionAndAllFlags := fun rA rB _ =>
  ⟨encodeF2_op1_defaultConfig 2 rA rB, op1_completes (alu := aluAnd) rfl⟩

/-- Settles O4: the shared rule with R157's result, which has no overflow. -/
theorem xorqWritesDisjunctionAndAllFlags : Obligations.XorqWritesDisjunctionAndAllFlags := fun rA rB _ =>
  ⟨encodeF2_op1_defaultConfig 3 rA rB, op1_completes (alu := aluXor) rfl⟩

end Sys2Proof.Machine
end

section
/-! SUPPORT. halt and nop (43_halt_nop.md R180, R181): each completes in every state, whatever its ifun; halt sets the status and nop
moves pc. -/

namespace Sys2Proof.Machine

/-- The bytes of halt at the default `ICODE_MAP`: icode 0 (R75). -/
theorem encode_halt_defaultConfig (ifun : Nybble) : encode defaultConfig (.halt ifun) = [byteOfNybbles 0 ifun] := rfl

/-- The bytes of nop at the default `ICODE_MAP`: icode 1 (R75). -/
theorem encode_nop_defaultConfig (ifun : Nybble) : encode defaultConfig (.nop ifun) = [byteOfNybbles 1 ifun] := rfl

theorem exec_halt (ifun : Nybble) (s : State) : exec (.halt ifun) s = .next { s with status := .halted } := rfl

theorem exec_nop (ifun : Nybble) (s : State) : exec (.nop ifun) s = .next { s with pc := s.pc + 1 } := rfl

/-- Settles O10: halt leaves the terminal status HALTED, in which a step is the identity (R101). -/
theorem haltStopsTheMachine : Obligations.HaltStopsTheMachine := by
  refine ⟨encode_halt_defaultConfig 0, fun ifun s => ⟨{ s with status := .halted }, exec_halt ifun s, rfl, ?_⟩⟩
  have hterminal : ({ s with status := .halted } : State).status ≠ .ok := by simp
  exact step_of_terminal hterminal

/-- Settles O11: nop completes in the state whose pc is one byte on (R181). -/
theorem nopAdvancesOneByte : Obligations.NopAdvancesOneByte :=
  ⟨encode_nop_defaultConfig 0, fun ifun s => ⟨{ s with pc := s.pc + 1 }, exec_nop ifun s, rfl⟩⟩

end Sys2Proof.Machine
end

section
/-! SUPPORT. The moves from a register or an immediate to a register (44_moves.md R190-R200). Each of them is one register write and a
move of pc: a conditional move whose condition fails writes back the value that rB holds. -/

namespace Sys2Proof.Machine

/-! ### A register write and a move of pc -/

theorem State.writeReg_readReg_self (s : State) (i : RegId) : s.writeReg i (s.readReg i) = s := by
  simp only [State.writeReg, State.readReg, Vector.set_getElem_self]

/-- An outcome that is a write of v to rB and a move of pc by n bytes, with its frame. -/
theorem completes_of_writeReg_advance {o : Host.Outcome State Fault Refusal} {s : State} {rB : RegId} {v : Word} {n : Nat}
    (ho : o = .next ((s.writeReg rB v).advance n)) :
    ∃ t, o = .next t ∧
      t.readReg rB = v ∧ t.pc = s.pc + BitVec.ofNat 64 n ∧ (∀ r, r ≠ rB → t.readReg r = s.readReg r) ∧
      (∀ a, t.readByte a = s.readByte a) ∧ t.cc = s.cc ∧ t.status = s.status ∧ t.cfg = s.cfg := by
  refine ⟨(s.writeReg rB v).advance n, ho, ?_, rfl, fun r hr => ?_, fun _ => rfl, rfl, rfl, rfl⟩
  · exact s.writeReg_readReg_same rB v
  · exact s.writeReg_readReg_ne rB r v hr

/-! ### The conditional moves (R190) -/

theorem conditionalMove_eq_writeReg (c : Cond) (rA rB : RegId) (s : State) :
    conditionalMove c rA rB s =
      .next ((s.writeReg rB (if condHolds c s.cc then s.readReg rA else s.readReg rB)).advance 2) := by
  rw [conditionalMove]
  by_cases hc : condHolds c s.cc = true
  · rw [if_pos hc, if_pos hc]
  · rw [if_neg hc, if_neg hc, State.writeReg_readReg_self]

/-- The bytes of a conditional move at the default `ICODE_MAP`: icode 2 (R75). -/
theorem encodeF2_cmov_defaultConfig (sel rA rB : Nybble) :
    encodeF2 defaultConfig .cmov sel rA rB = [byteOfNybbles 2 sel, rA ++ rB] := rfl

/-- Settles O12: each of the seven is the shared rule at its own condition, encoded with the selector that the default `COND_MAP`
gives the condition. -/
theorem conditionalMovesCopyWhenConditionHolds : Obligations.ConditionalMovesCopyWhenConditionHolds := by
  intro rA rB s i opcode taken hi
  have hmove (c : Cond) := completes_of_writeReg_advance (conditionalMove_eq_writeReg c rA rB s)
  simp only [List.mem_cons, List.not_mem_nil, or_false, Prod.mk.injEq] at hi
  obtain ⟨rfl, rfl, rfl⟩ | ⟨rfl, rfl, rfl⟩ | ⟨rfl, rfl, rfl⟩ | ⟨rfl, rfl, rfl⟩ | ⟨rfl, rfl, rfl⟩ | ⟨rfl, rfl, rfl⟩ |
    ⟨rfl, rfl, rfl⟩ := hi
  · exact ⟨encodeF2_cmov_defaultConfig 0 rA rB, hmove .always⟩
  · exact ⟨encodeF2_cmov_defaultConfig 1 rA rB, hmove .le⟩
  · exact ⟨encodeF2_cmov_defaultConfig 2 rA rB, hmove .lt⟩
  · exact ⟨encodeF2_cmov_defaultConfig 3 rA rB, hmove .eq⟩
  · exact ⟨encodeF2_cmov_defaultConfig 4 rA rB, hmove .ne⟩
  · exact ⟨encodeF2_cmov_defaultConfig 5 rA rB, hmove .ge⟩
  · exact ⟨encodeF2_cmov_defaultConfig 6 rA rB, hmove .gt⟩

/-! ### irmovq (R200) -/

/-- The bytes of irmovq at the default `ICODE_MAP`: icode 3 (R75). -/
theorem encode_irmovq_defaultConfig (ifun rA : Nybble) (rB : RegId) (v : Word) :
    encode defaultConfig (.irmovq ifun rA rB v) = byteOfNybbles 3 ifun :: (rA ++ rB) :: wordBytes v := rfl

theorem exec_irmovq (ifun rA : Nybble) (rB : RegId) (v : Word) (s : State) :
    exec (.irmovq ifun rA rB v) s = .next ((s.writeReg rB v).advance 10) := rfl

/-- Settles O13: irmovq is the write of its immediate to rB, whatever its ifun and its rA. -/
theorem irmovqLoadsImmediate : Obligations.IrmovqLoadsImmediate := fun ifun rA rB v s =>
  ⟨encode_irmovq_defaultConfig 0 0xF rB v, completes_of_writeReg_advance (exec_irmovq ifun rA rB v s)⟩

end Sys2Proof.Machine
end

section
/-! SUPPORT. Decoding and encoding undo each other (30_encoding.md, formats and opcode map): the operand bytes of a format are read back
as they were written, and each class's instruction carries the ifun, the register byte and the valC it was assembled from. -/

namespace Sys2Proof

/-! ### The class checks (R106) -/

/-- An ifun that passes the checks of its class: it is a function of OP1, and no unread ifun that `STRICT_IFUN` refuses (R106 checks
2 and 3). -/
def IfunLegal (cfg : Config) (cls : IClass) (ifun : Nybble) : Prop :=
  ¬ (cls = .op1 ∧ 3 < ifun) ∧ ¬ (cfg.strictIfun ∧ cls.readsIfun = false ∧ ifun ≠ 0)

theorem ifunLegal_cmov (cfg : Config) (ifun : Nybble) : IfunLegal cfg .cmov ifun := by simp [IfunLegal, IClass.readsIfun]

theorem ifunLegal_jxx (cfg : Config) (ifun : Nybble) : IfunLegal cfg .jxx ifun := by simp [IfunLegal, IClass.readsIfun]

theorem ifunLegal_op1 (cfg : Config) (f : AluFn) : IfunLegal cfg .op1 (ifunOf f) := by
  have hfn : ¬ 3 < ifunOf f := by cases f <;> decide
  exact ⟨fun h => hfn h.2, by simp [IClass.readsIfun]⟩

/-- For a class that reads no ifun, the checks ask what `Instr.wf` asks. -/
theorem ifunLegal_iff_of_unread {cfg : Config} {cls : IClass} {ifun : Nybble} (hread : cls.readsIfun = false) :
    IfunLegal cfg cls ifun ↔ (!cfg.strictIfun || ifun == 0) = true := by
  have hop1 : cls ≠ .op1 := by rintro rfl; cases hread
  simp only [IfunLegal, hop1, hread, false_and, not_false_eq_true, true_and]
  cases cfg.strictIfun <;> simp

theorem decodeOpcode_of_ifunLegal {cfg : Config} {b : Byte} {cls : IClass} (hcls : classOf cfg (nybble b 1) = some cls)
    (h : IfunLegal cfg cls (nybble b 0)) : decodeOpcode cfg b = .operands cls (nybble b 0) := by
  unfold decodeOpcode
  dsimp only
  rw [hcls]
  dsimp only
  rw [if_neg h.1, if_neg h.2]

theorem decodeOpcode_operands {cfg : Config} {b : Byte} {cls : IClass} {ifun : Nybble}
    (h : decodeOpcode cfg b = .operands cls ifun) :
    classOf cfg (nybble b 1) = some cls ∧ ifun = nybble b 0 ∧ IfunLegal cfg cls ifun := by
  unfold decodeOpcode at h
  dsimp only at h
  split at h
  · cases h
  · next c hc =>
    split at h
    · cases h
    · next hop1 =>
      split at h
      · cases h
      · next hstrict =>
        cases h
        exact ⟨hc, rfl, hop1, hstrict⟩

theorem decodeOpcode_whole {cfg : Config} {b : Byte} {i : Instr} (h : decodeOpcode cfg b = .whole i) :
    12 ≤ nybble b 1 ∧ i = .unknownIcode ((nybble b 1).extractLsb' 0 2) (nybble b 0) ∨
    classOf cfg (nybble b 1) = some .op1 ∧ 3 < nybble b 0 ∧ i = undefinedOp1 (nybble b 0) := by
  unfold decodeOpcode at h
  dsimp only at h
  split at h
  · next hc =>
    cases h
    exact .inl ⟨(classOf_none_iff cfg _).1 hc, rfl⟩
  · next c hc =>
    split at h
    · next hop1 =>
      cases h
      exact .inr ⟨hop1.1 ▸ hc, hop1.2, rfl⟩
    · split at h <;> cases h

/-! ### The rows that share an opcode byte's nybble with a field -/

/-- An undefined selector is 7 or 8 + its low three bits. -/
theorem undefinedSelector_cases (sel : Nybble) (h : 7 ≤ sel) :
    sel < 8 ∧ sel = 7 ∨ ¬ sel < 8 ∧ eightPlus (sel.extractLsb' 0 3) = sel := by
  revert sel; decide

theorem undefinedOp1_fourPlus (low : BitVec 2) : undefinedOp1 (fourPlus low) = .op1Undef4to7 low := by revert low; decide

theorem undefinedOp1_eightPlus (low : BitVec 3) : undefinedOp1 (eightPlus low) = .op1Undef8to15 low := by revert low; decide

theorem three_lt_fourPlus (low : BitVec 2) : 3 < fourPlus low := by revert low; decide

theorem three_lt_eightPlus (low : BitVec 3) : 3 < eightPlus low := by revert low; decide

theorem twelve_le_twelvePlus (low : BitVec 2) : 12 ≤ twelvePlus low := by revert low; decide

theorem twelvePlus_extractLsb' (icode : Nybble) (h : 12 ≤ icode) : twelvePlus (icode.extractLsb' 0 2) = icode := by
  revert icode; decide

theorem extractLsb'_twelvePlus (low : BitVec 2) : (twelvePlus low).extractLsb' 0 2 = low := by revert low; decide

theorem eightPlus_not_lt (low : BitVec 3) : ¬ eightPlus low < 8 := by revert low; decide

theorem extractLsb'_eightPlus (low : BitVec 3) : (eightPlus low).extractLsb' 0 3 = low := by revert low; decide

theorem cmovInstr_seven (cfg : Config) (rA rB : RegId) : cmovInstr cfg 7 rA rB = .cmovUndef7 rA rB := by
  rw [cmovInstr, condOf_seven]
  rfl

theorem cmovInstr_eightPlus (cfg : Config) (low : BitVec 3) (rA rB : RegId) :
    cmovInstr cfg (eightPlus low) rA rB = .cmovUndef8to15 low rA rB := by
  rw [cmovInstr, condOf_eightPlus]
  dsimp only
  rw [if_neg (eightPlus_not_lt low), extractLsb'_eightPlus]

theorem jxxInstr_seven (cfg : Config) (dest : Word) : jxxInstr cfg 7 dest = .jxxUndef7 dest := by
  rw [jxxInstr, condOf_seven]
  rfl

theorem jxxInstr_eightPlus (cfg : Config) (low : BitVec 3) (dest : Word) :
    jxxInstr cfg (eightPlus low) dest = .jxxUndef8to15 low dest := by
  rw [jxxInstr, condOf_eightPlus]
  dsimp only
  rw [if_neg (eightPlus_not_lt low), extractLsb'_eightPlus]

/-! ### Decoding what was encoded -/

theorem takeOperands_F9 (valC : Word) (rest : List Byte) :
    takeOperands .F9 (wordBytes valC ++ rest) = some (0, valC, rest) := by
  rw [takeOperands, takeWord_wordBytes, Option.map_some]

theorem takeOperands_F10 (regByte : Byte) (valC : Word) (rest : List Byte) :
    takeOperands .F10 (regByte :: (wordBytes valC ++ rest)) = some (regByte, valC, rest) := by
  rw [takeOperands, takeByte, Option.bind_some, takeWord_wordBytes, Option.map_some]

/-- The decoder on the opcode byte of a class with a legal ifun, before the operand bytes that the class asks for. -/
theorem decode_of_ifunLegal {cfg : Config} (hmaps : cfg.mapsWf) {cls : IClass} {ifun : Nybble} (h : IfunLegal cfg cls ifun)
    {bytes rest : List Byte} {regByte : Byte} {valC : Word}
    (hop : takeOperands cls.format bytes = some (regByte, valC, rest)) :
    decode cfg (byteOfNybbles (icodeOf cfg cls) ifun :: bytes) = .ok (assemble cfg cls ifun regByte valC, rest) := by
  have hcls : classOf cfg (nybble (byteOfNybbles (icodeOf cfg cls) ifun) 1) = some cls := by
    rw [nybble_one_byteOfNybbles, classOf_icodeOf hmaps]
  rw [← nybble_zero_byteOfNybbles (icodeOf cfg cls) ifun] at h
  rw [decode, decodeOpcode_of_ifunLegal hcls h, nybble_zero_byteOfNybbles]
  dsimp only
  rw [hop]

section
variable {cfg : Config} (hmaps : cfg.mapsWf) {cls : IClass} {ifun : Nybble} (h : IfunLegal cfg cls ifun) (rest : List Byte)
include hmaps h

theorem decode_encodeF1 (hf : cls.format = .F1) :
    decode cfg (encodeF1 cfg cls ifun ++ rest) = .ok (assemble cfg cls ifun 0 0, rest) :=
  decode_of_ifunLegal hmaps h (hf ▸ rfl)

theorem decode_encodeF2 (hf : cls.format = .F2) (rA rB : Nybble) :
    decode cfg (encodeF2 cfg cls ifun rA rB ++ rest) = .ok (assemble cfg cls ifun (byteOfNybbles rA rB) 0, rest) :=
  decode_of_ifunLegal hmaps h (hf ▸ rfl)

theorem decode_encodeF9 (hf : cls.format = .F9) (valC : Word) :
    decode cfg (encodeF9 cfg cls ifun valC ++ rest) = .ok (assemble cfg cls ifun 0 valC, rest) :=
  decode_of_ifunLegal hmaps h (hf ▸ takeOperands_F9 valC rest)

theorem decode_encodeF10 (hf : cls.format = .F10) (rA rB : Nybble) (valC : Word) :
    decode cfg (encodeF10 cfg cls ifun rA rB valC ++ rest) =
      .ok (assemble cfg cls ifun (byteOfNybbles rA rB) valC, rest) :=
  decode_of_ifunLegal hmaps h (hf ▸ takeOperands_F10 (byteOfNybbles rA rB) valC rest)

end

/-- CMOVxx with any selector: the row of the selector. -/
theorem decode_encodeF2_cmov {cfg : Config} (hmaps : cfg.mapsWf) (sel rA rB : Nybble) (rest : List Byte) :
    decode cfg (encodeF2 cfg .cmov sel rA rB ++ rest) = .ok (cmovInstr cfg sel rA rB, rest) := by
  rw [decode_encodeF2 hmaps (ifunLegal_cmov cfg sel) rest rfl]
  simp only [assemble, nybble_one_byteOfNybbles, nybble_zero_byteOfNybbles]

theorem decode_encodeF2_op1 {cfg : Config} (hmaps : cfg.mapsWf) (f : AluFn) (rA rB : Nybble) (rest : List Byte) :
    decode cfg (encodeF2 cfg .op1 (ifunOf f) rA rB ++ rest) = .ok (op1Instr (ifunOf f) rA rB, rest) := by
  rw [decode_encodeF2 hmaps (ifunLegal_op1 cfg f) rest rfl]
  simp only [assemble, nybble_one_byteOfNybbles, nybble_zero_byteOfNybbles]

theorem decode_encodeF9_jxx {cfg : Config} (hmaps : cfg.mapsWf) (sel : Nybble) (valC : Word) (rest : List Byte) :
    decode cfg (encodeF9 cfg .jxx sel valC ++ rest) = .ok (jxxInstr cfg sel valC, rest) :=
  decode_encodeF9 hmaps (ifunLegal_jxx cfg sel) rest rfl valC

/-- OP1 with an undefined function: its opcode byte alone is the row (R81). -/
theorem decode_encodeF1_undefinedOp1 {cfg : Config} (hmaps : cfg.mapsWf) {ifun : Nybble} (h : 3 < ifun) (rest : List Byte) :
    decode cfg (encodeF1 cfg .op1 ifun ++ rest) = .ok (undefinedOp1 ifun, rest) := by
  have hv : decodeOpcode cfg (byteOfNybbles (icodeOf cfg .op1) ifun) = .whole (undefinedOp1 ifun) := by
    rw [decodeOpcode_byteOfNybbles, classOf_icodeOf hmaps]
    exact if_pos ⟨rfl, h⟩
  rw [encodeF1, List.singleton_append, decode, hv]

theorem decode_unrecognised (cfg : Config) {icode : Nybble} (h : 12 ≤ icode) (ifun : Nybble) (rest : List Byte) :
    decode cfg (byteOfNybbles icode ifun :: rest) = .ok (.unknownIcode (icode.extractLsb' 0 2) ifun, rest) := by
  rw [← nybble_one_byteOfNybbles icode ifun] at h
  rw [decode, decodeOpcode_of_unrecognised cfg h, nybble_one_byteOfNybbles, nybble_zero_byteOfNybbles]

/-- Settles O28: each constructor is encoded in one format, whose bytes decode to the class's instruction with the same fields. -/
theorem decodeEncodeRoundTrip : Obligations.DecodeEncodeRoundTrip := by
  intro cfg i rest hmaps hwf
  have hcmov := decode_encodeF2_cmov hmaps (rest := rest)
  have hop1 := decode_encodeF2_op1 hmaps (rest := rest)
  have hjxx := decode_encodeF9_jxx hmaps (rest := rest)
  have hundef {ifun : Nybble} (h : 3 < ifun) := decode_encodeF1_undefinedOp1 hmaps h rest
  have hlegal {cls : IClass} {ifun : Nybble} (hread : cls.readsIfun = false) :=
    (ifunLegal_iff_of_unread (cfg := cfg) (ifun := ifun) hread).2
  cases i with
  | halt | nop | ret =>
    rw [encode, decode_encodeF1 hmaps (hlegal rfl hwf) rest rfl]
    rfl
  | call =>
    rw [encode, decode_encodeF9 hmaps (hlegal rfl hwf) rest rfl]
    rfl
  | pushq | popq =>
    rw [encode, decode_encodeF2 hmaps (hlegal rfl hwf) rest rfl]
    simp only [assemble, nybble_one_byteOfNybbles, nybble_zero_byteOfNybbles]
  | irmovq | rmmovq | mrmovq =>
    rw [encode, decode_encodeF10 hmaps (hlegal rfl hwf) rest rfl]
    simp only [assemble, nybble_one_byteOfNybbles, nybble_zero_byteOfNybbles]
  | rrmovq | cmovle | cmovl | cmove | cmovne | cmovge | cmovg =>
    rw [encode, hcmov, cmovInstr, condOf_selOf hmaps]
  | cmovUndef7 => rw [encode, hcmov, cmovInstr_seven]
  | cmovUndef8to15 => rw [encode, hcmov, cmovInstr_eightPlus]
  | jmp | jle | jl | je | jne | jge | jg => rw [encode, hjxx, jxxInstr, condOf_selOf hmaps]
  | jxxUndef7 => rw [encode, hjxx, jxxInstr_seven]
  | jxxUndef8to15 => rw [encode, hjxx, jxxInstr_eightPlus]
  | addq | subq | andq | xorq => rw [encode, hop1, op1Instr, aluFnOf_ifunOf]
  | op1Undef4to7 low => rw [encode, hundef (three_lt_fourPlus low), undefinedOp1_fourPlus]
  | op1Undef8to15 low => rw [encode, hundef (three_lt_eightPlus low), undefinedOp1_eightPlus]
  | unknownIcode low f =>
    rw [encode, List.singleton_append, decode_unrecognised cfg (twelve_le_twelvePlus low), extractLsb'_twelvePlus]

/-! ### Encoding what was decoded -/

/-- The bytes of a format after its opcode byte: those `takeOperands` reads. -/
def operandBytes (f : Format) (regByte : Byte) (valC : Word) : List Byte :=
  match f with
  | .F1 => []
  | .F2 => [regByte]
  | .F9 => wordBytes valC
  | .F10 => regByte :: wordBytes valC

theorem takeOperands_some {f : Format} {bytes rest : List Byte} {regByte : Byte} {valC : Word}
    (h : takeOperands f bytes = some (regByte, valC, rest)) : bytes = operandBytes f regByte valC ++ rest := by
  cases f with
  | F1 => cases h; rfl
  | F2 =>
    cases bytes with
    | nil => cases h
    | cons b bs => cases h; rfl
  | F9 =>
    obtain ⟨⟨w, bs⟩, hw, hp⟩ := Option.map_eq_some_iff.1 h
    cases hp
    exact takeWord_some hw
  | F10 =>
    cases bytes with
    | nil => cases h
    | cons b bs =>
      obtain ⟨⟨w, bs'⟩, hw, hp⟩ := Option.map_eq_some_iff.1 h
      cases hp
      exact congrArg (b :: ·) (takeWord_some hw)

theorem encode_cmovInstr {cfg : Config} (hmaps : cfg.mapsWf) (sel : Nybble) (rA rB : RegId) :
    encode cfg (cmovInstr cfg sel rA rB) = encodeF2 cfg .cmov sel rA rB := by
  cases hc : condOf cfg sel with
  | some c =>
    have hsel := selOf_of_condOf hmaps hc
    cases c <;> simp only [cmovInstr, hc, encode, hsel]
  | none =>
    rcases undefinedSelector_cases sel ((condOf_none_iff cfg sel).1 hc) with ⟨-, rfl⟩ | ⟨-, h8⟩
    · rw [cmovInstr_seven, encode]
    · rw [← h8, cmovInstr_eightPlus, encode]

theorem encode_jxxInstr {cfg : Config} (hmaps : cfg.mapsWf) (sel : Nybble) (dest : Word) :
    encode cfg (jxxInstr cfg sel dest) = encodeF9 cfg .jxx sel dest := by
  cases hc : condOf cfg sel with
  | some c =>
    have hsel := selOf_of_condOf hmaps hc
    cases c <;> simp only [jxxInstr, hc, encode, hsel]
  | none =>
    rcases undefinedSelector_cases sel ((condOf_none_iff cfg sel).1 hc) with ⟨-, rfl⟩ | ⟨-, h8⟩
    · rw [jxxInstr_seven, encode]
    · rw [← h8, jxxInstr_eightPlus, encode]

theorem encode_op1Instr (cfg : Config) {ifun : Nybble} (h : ¬ 3 < ifun) (rA rB : RegId) :
    encode cfg (op1Instr ifun rA rB) = encodeF2 cfg .op1 ifun rA rB := by
  cases hf : aluFnOf ifun with
  | some f =>
    have hifun := ifunOf_of_aluFnOf hf
    cases f <;> simp only [op1Instr, hf, encode, hifun]
  | none =>
    have h4 : 4 ≤ ifun := (aluFnOf_none_iff ifun).1 hf
    bv_omega

/-- The instruction assembled from a class and its fields is encoded with those fields. -/
theorem encode_assemble {cfg : Config} (hmaps : cfg.mapsWf) {cls : IClass} {ifun : Nybble} (h : IfunLegal cfg cls ifun)
    (regByte : Byte) (valC : Word) :
    encode cfg (assemble cfg cls ifun regByte valC) =
      byteOfNybbles (icodeOf cfg cls) ifun :: operandBytes cls.format regByte valC := by
  cases cls with
  | halt | nop | ret | call => rfl
  | pushq | popq => simp only [assemble, encode, encodeF2, byteOfNybbles_nybble, IClass.format, operandBytes]
  | irmovq | rmmovq | mrmovq =>
    simp only [assemble, encode, encodeF10, byteOfNybbles_nybble, IClass.format, operandBytes]
  | cmov => simp only [assemble, encode_cmovInstr hmaps, encodeF2, byteOfNybbles_nybble, IClass.format, operandBytes]
  | jxx => simp only [assemble, encode_jxxInstr hmaps, encodeF9, IClass.format, operandBytes]
  | op1 =>
    have hfn : ¬ 3 < ifun := fun hlt => h.1 ⟨rfl, hlt⟩
    simp only [assemble, encode_op1Instr cfg hfn, encodeF2, byteOfNybbles_nybble, IClass.format, operandBytes]

theorem unreadIfun_cmovInstr (cfg : Config) (sel : Nybble) (rA rB : RegId) :
    (cmovInstr cfg sel rA rB).unreadIfun = none := by
  unfold cmovInstr
  repeat' split
  all_goals rfl

theorem unreadIfun_jxxInstr (cfg : Config) (sel : Nybble) (dest : Word) : (jxxInstr cfg sel dest).unreadIfun = none := by
  unfold jxxInstr
  repeat' split
  all_goals rfl

theorem unreadIfun_undefinedOp1 (ifun : Nybble) : (undefinedOp1 ifun).unreadIfun = none := by
  unfold undefinedOp1
  split <;> rfl

theorem unreadIfun_op1Instr (ifun : Nybble) (rA rB : RegId) : (op1Instr ifun rA rB).unreadIfun = none := by
  unfold op1Instr
  split <;> [rfl; rfl; rfl; rfl; exact unreadIfun_undefinedOp1 ifun]

/-- What the class checks let pass is a well-formed instruction. -/
theorem wf_assemble {cfg : Config} {cls : IClass} {ifun : Nybble} (h : IfunLegal cfg cls ifun) (regByte : Byte) (valC : Word) :
    (assemble cfg cls ifun regByte valC).wf cfg.strictIfun = true := by
  cases cls with
  | halt | nop | irmovq | rmmovq | mrmovq | call | ret | pushq | popq => exact (ifunLegal_iff_of_unread rfl).1 h
  | cmov => rw [assemble, Instr.wf, unreadIfun_cmovInstr]
  | jxx => rw [assemble, Instr.wf, unreadIfun_jxxInstr]
  | op1 => rw [assemble, Instr.wf, unreadIfun_op1Instr]

/-- Settles O29: the opcode byte is that of the class it names, and the operand bytes are those the assembled instruction has. -/
theorem encodeDecodeRoundTrip : Obligations.EncodeDecodeRoundTrip := by
  intro cfg bytes rest i hmaps h
  cases bytes with
  | nil => cases h
  | cons b0 bytes =>
    rw [decode] at h
    split at h
    · next j hv =>
      cases h
      rcases decodeOpcode_whole hv with ⟨h12, rfl⟩ | ⟨hcls, hfn, rfl⟩
      · rw [encode, twelvePlus_extractLsb' _ h12, byteOfNybbles_nybble]
        exact ⟨rfl, rfl⟩
      · rw [encode_undefinedOp1 cfg _ hfn, icodeOf_of_classOf hmaps hcls, byteOfNybbles_nybble, Instr.wf,
          unreadIfun_undefinedOp1]
        exact ⟨rfl, rfl⟩
    · cases h
    · next cls ifun hv =>
      obtain ⟨hcls, rfl, hlegal⟩ := decodeOpcode_operands hv
      split at h
      · next regByte valC left hop =>
        cases h
        rw [encode_assemble hmaps hlegal, icodeOf_of_classOf hmaps hcls, byteOfNybbles_nybble, takeOperands_some hop]
        exact ⟨rfl, wf_assemble hlegal regByte valC⟩
      · cases h

end Sys2Proof
end

section
/-! SUPPORT. The opcode byte: its nybbles are the numbers of `ICODE_MAP` and `COND_MAP` (30_encoding.md R71, R75, R134), and at the
default maps each of the 256 bytes is decoded to the one row of opcode_table.json that it matches (R79). -/

namespace Sys2Proof

/-! ### The nybbles of the opcode byte -/

theorem toNat_eightPlus (low : BitVec 3) : (eightPlus low).toNat = 8 + low.toNat := by revert low; decide

theorem toNat_fourPlus (low : BitVec 2) : (fourPlus low).toNat = 4 + low.toNat := by revert low; decide

theorem toNat_twelvePlus (low : BitVec 2) : (twelvePlus low).toNat = 12 + low.toNat := by revert low; decide

/-- Settles O59: every encoder puts the icode of the class before the row's own ifun, and the maps read both numbers back. -/
theorem opcodeByteFollowsTheMaps : Obligations.OpcodeByteFollowsTheMaps := by
  intro cfg i hmaps
  have hclass := classOf_icodeOf hmaps
  have hcond := condOf_selOf hmaps
  cases i with
  | halt | nop | irmovq | rmmovq | mrmovq | call | ret | pushq | popq => exact ⟨_, _, _, rfl, hclass _, rfl⟩
  | rrmovq | cmovle | cmovl | cmove | cmovne | cmovge | cmovg => exact ⟨_, _, _, rfl, hclass .cmov, hcond _⟩
  | jmp | jle | jl | je | jne | jge | jg => exact ⟨_, _, _, rfl, hclass .jxx, hcond _⟩
  | addq | subq | andq | xorq => exact ⟨_, _, _, rfl, hclass .op1, rfl⟩
  | cmovUndef7 | jxxUndef7 => exact ⟨_, _, _, rfl, hclass _, rfl⟩
  | cmovUndef8to15 low | jxxUndef8to15 low | op1Undef8to15 low => exact ⟨_, _, _, rfl, hclass _, toNat_eightPlus low⟩
  | op1Undef4to7 low => exact ⟨_, _, _, rfl, hclass .op1, toNat_fourPlus low⟩
  | unknownIcode low f => exact ⟨twelvePlus low, f, [], rfl, toNat_twelvePlus low, rfl⟩

/-! ### The rows of the opcode table -/

theorem takeOperands_of_length {bytes : List Byte} (h : 9 ≤ bytes.length) (f : Format) :
    ∃ regByte valC rest, takeOperands f bytes = some (regByte, valC, rest) := by
  match bytes, h with
  | b0 :: b1 :: b2 :: b3 :: b4 :: b5 :: b6 :: b7 :: b8 :: rest, _ => cases f <;> exact ⟨_, _, _, rfl⟩

theorem mnemonic_cmovInstr (cfg : Config) (sel : Nybble) (rA rB rA' rB' : RegId) :
    (cmovInstr cfg sel rA rB).mnemonic = (cmovInstr cfg sel rA' rB').mnemonic := by
  unfold cmovInstr
  repeat' split
  all_goals rfl

theorem mnemonic_jxxInstr (cfg : Config) (sel : Nybble) (dest dest' : Word) :
    (jxxInstr cfg sel dest).mnemonic = (jxxInstr cfg sel dest').mnemonic := by
  unfold jxxInstr
  repeat' split
  all_goals rfl

theorem mnemonic_op1Instr (ifun : Nybble) (rA rB rA' rB' : RegId) :
    (op1Instr ifun rA rB).mnemonic = (op1Instr ifun rA' rB').mnemonic := by
  unfold op1Instr
  split <;> rfl

/-- The operand bytes have no say in the row: the opcode byte decides it. -/
theorem mnemonic_assemble (cfg : Config) (cls : IClass) (ifun : Nybble) (regByte : Byte) (valC : Word) :
    (assemble cfg cls ifun regByte valC).mnemonic = (assemble cfg cls ifun 0 0).mnemonic := by
  cases cls with
  | cmov => exact mnemonic_cmovInstr cfg ifun ..
  | jxx => exact mnemonic_jxxInstr cfg ifun ..
  | op1 => exact mnemonic_op1Instr ifun ..
  | _ => rfl

/-- The row an opcode byte is decoded to under a configuration; none where it is refused. -/
def rowMnemonic (cfg : Config) (b : Byte) : Option String :=
  match decodeOpcode cfg b with
  | .whole i => some i.mnemonic
  | .rejected _ => none
  | .operands cls ifun => some (assemble cfg cls ifun 0 0).mnemonic

/-- With enough bytes after it, an opcode byte is decoded to an instruction of its row. -/
theorem decode_of_rowMnemonic {cfg : Config} {b : Byte} {rest : List Byte} {m : String} (hrest : 9 ≤ rest.length)
    (h : rowMnemonic cfg b = some m) : ∃ i left, decode cfg (b :: rest) = .ok (i, left) ∧ i.mnemonic = m := by
  rw [decode]
  unfold rowMnemonic at h
  cases hv : decodeOpcode cfg b with
  | whole i => exact ⟨i, rest, rfl, by simpa [hv] using h⟩
  | rejected r => simp [hv] at h
  | operands cls ifun =>
    obtain ⟨regByte, valC, left, hop⟩ := takeOperands_of_length hrest cls.format
    refine ⟨assemble cfg cls ifun regByte valC, left, ?_, ?_⟩
    · simp only [hop]
    · simpa [hv, mnemonic_assemble cfg cls ifun regByte valC] using h

/-- The decoder and opcode_table.json compared, byte by byte. -/
theorem opcodeRows_filter_map (b : Byte) :
    (opcodeRows.filter (fun r => b &&& r.mask == r.pattern)).map (fun r => some r.mnemonic) =
      [rowMnemonic Machine.defaultConfig b] := by
  revert b; decide

/-- Settles O31: the one row that matches the byte is the row the byte is decoded to. -/
theorem everyOpcodeByteDecodesToItsRow : Obligations.EveryOpcodeByteDecodesToItsRow := by
  intro b rest hrest
  obtain ⟨row, hrow, hm⟩ := List.map_eq_singleton_iff.1 (opcodeRows_filter_map b)
  exact ⟨row, hrow, decode_of_rowMnemonic hrest hm.symm⟩

/-- Settles O32: the decoder run on each of the eight words. -/
theorem writtenWordsDecode : Obligations.WrittenWordsDecode := by
  unfold Obligations.WrittenWordsDecode
  decide

end Sys2Proof
end

section
/-! SUPPORT. addq and subq in exact integers (42_alu_op1.md R159; 41_condition_codes.md R137): O is the library's signed overflow, and after
a subtraction S differs from O exactly when the signed difference is negative. -/

namespace Sys2Proof.Machine

theorem addOverflow_eq_saddOverflow (opA opB : Word) : addOverflow opA opB (opB + opA) = BitVec.saddOverflow opB opA := by
  rw [BitVec.saddOverflow_eq, addOverflow, sign, sign, sign]
  cases opA.msb <;> cases opB.msb <;> cases (opB + opA).msb <;> rfl

theorem subOverflow_eq_ssubOverflow (opA opB : Word) : subOverflow opA opB (opB - opA) = BitVec.ssubOverflow opB opA := by
  rw [BitVec.ssubOverflow_eq, subOverflow, sign, sign, sign]
  cases opA.msb <;> cases opB.msb <;> cases (opB - opA).msb <;> rfl

theorem addOverflow_iff_toInt (opA opB : Word) :
    addOverflow opA opB (opB + opA) = true ↔
      ¬ (-2 ^ 63 ≤ opB.toInt + opA.toInt ∧ opB.toInt + opA.toInt ≤ 2 ^ 63 - 1) := by
  rw [addOverflow_eq_saddOverflow, BitVec.saddOverflow, Bool.or_eq_true, decide_eq_true_iff, decide_eq_true_iff]
  omega

theorem subOverflow_iff_toInt (opA opB : Word) :
    subOverflow opA opB (opB - opA) = true ↔
      ¬ (-2 ^ 63 ≤ opB.toInt - opA.toInt ∧ opB.toInt - opA.toInt ≤ 2 ^ 63 - 1) := by
  rw [subOverflow_eq_ssubOverflow, BitVec.ssubOverflow, Bool.or_eq_true, decide_eq_true_iff, decide_eq_true_iff]
  omega

theorem exec_addq (rA rB : RegId) (s : State) : exec (.addq rA rB) s = op1 aluAdd rA rB s := rfl

theorem exec_subq (rA rB : RegId) (s : State) : exec (.subq rA rB) s = op1 aluSubtract rA rB s := rfl

/-- The flags OP1 leaves are those its ALU function gives (R151). -/
theorem op1_cc {alu : Word → Word → Word × Flags} {rA rB : RegId} {s t : State} (h : op1 alu rA rB s = .next t) :
    t.cc = (alu (s.readReg rA) (s.readReg rB)).2 := by
  cases h
  rfl

/-- Settles O5: the O flag is addOverflow or subOverflow of the operands and their result. -/
theorem overflowFlagIsExactSignedOverflow : Obligations.OverflowFlagIsExactSignedOverflow := by
  intro rA rB s t
  refine ⟨fun h => ?_, fun h => ?_⟩
  · rw [op1_cc (exec_addq rA rB s ▸ h)]
    exact addOverflow_iff_toInt ..
  · rw [op1_cc (exec_subq rA rB s ▸ h)]
    exact subOverflow_iff_toInt ..

/-! ### The conditions after a subtraction (R137) -/

/-- S and O after a subtraction differ exactly when the signed difference is negative: without overflow S is its sign, and with
overflow the opposite. -/
theorem sign_xor_subOverflow (opA opB : Word) :
    (sign (opB - opA) ^^ subOverflow opA opB (opB - opA)) = decide (opB.toInt < opA.toInt) := by
  have hA : -2 ^ 63 ≤ opA.toInt ∧ opA.toInt < 2 ^ 63 := ⟨opA.le_toInt, BitVec.toInt_lt⟩
  have hB : -2 ^ 63 ≤ opB.toInt ∧ opB.toInt < 2 ^ 63 := ⟨opB.le_toInt, BitVec.toInt_lt⟩
  have hsub : (opB - opA).toInt = (opB.toInt - opA.toInt).bmod (2 ^ 64) := BitVec.toInt_sub
  have hover := subOverflow_iff_toInt opA opB
  have hsign : sign (opB - opA) = true ↔ (opB - opA).toInt < 0 := by
    rw [sign, BitVec.msb_eq_toInt, decide_eq_true_iff]
  rw [Bool.eq_iff_iff, decide_eq_true_iff, Bool.xor_iff_ne, ne_eq, Bool.eq_iff_iff, hsign, hover, hsub]
  rw [Int.bmod]
  split <;> omega

theorem sub_eq_zero_iff_eq (opA opB : Word) : (opB - opA == 0) = decide (opB = opA) := by
  rw [Bool.eq_iff_iff, beq_iff_eq, decide_eq_true_iff, sub_eq_zero]

/-- Settles O7: every condition is read off S and O, which say whether the old x[rB] is less, and Z, which says whether they are
equal. -/
theorem conditionsAfterSubqCompareSigned : Obligations.ConditionsAfterSubqCompareSigned := by
  intro rA rB s t h
  have hcc := op1_cc (exec_subq rA rB s ▸ h)
  generalize s.readReg rA = opA at *
  generalize s.readReg rB = opB at *
  have hlt : (t.cc.s ^^ t.cc.o) = decide (opB.toInt < opA.toInt) := by
    rw [hcc]
    exact sign_xor_subOverflow opA opB
  have heq : t.cc.z = decide (opB = opA) := by
    rw [hcc]
    exact sub_eq_zero_iff_eq opA opB
  simp only [condHolds, hlt, heq, ← BitVec.toInt_inj, ← decide_not, ← Bool.decide_or, ← Bool.decide_and,
    decide_eq_decide, ne_eq, true_and]
  omega

end Sys2Proof.Machine
end

section
/-! SUPPORT. Memory accesses (20_memory.md R51-R55) and canonical memory lists: what a stored word makes of every byte, when an access
succeeds, and that a canonical list is the graph of what it reads as. -/

namespace Sys2Proof.Machine

/-! ### A stored word, byte by byte -/

theorem State.readByte_congr {s t : State} (hcfg : t.cfg = s.cfg) {a : Nat} (h : t.mem.read a = s.mem.read a) :
    t.readByte a = s.readByte a := by
  simp only [State.readByte, State.byteInRange, hcfg, h]

/-- The state t holds s's memory with the word w stored at a, in range. -/
structure Stored (s t : State) (a : Nat) (w : Word) : Prop where
  cfg : t.cfg = s.cfg
  mem : t.mem = s.mem.writeBytes a (wordBytes w)
  inRange : s.wordInRange a

section
variable {s t : State} {a : Nat} {w : Word} (h : Stored s t a w)
include h

theorem Stored.wordInRange : t.wordInRange a := by
  rw [State.wordInRange, h.cfg]
  exact h.inRange

/-- R54: the bytes of the word, least significant first. -/
theorem Stored.readByte_inside (k : Nat) (hk : k < 8) : t.readByte (a + k) = some (w.extractLsb' (8 * k) 8) := by
  have hrange : t.byteInRange (a + k) := by
    have := h.wordInRange
    simp only [State.wordInRange, State.byteInRange] at *
    omega
  rw [State.readByte_of_inRange hrange, h.mem, Memory.read_writeBytes_inside _ _ _ k (by simpa using hk),
    wordBytes_getElem w k hk, byteOf]

theorem Stored.readByte_outside (x : Nat) (hx : x < a ∨ a + 8 ≤ x) : t.readByte x = s.readByte x := by
  refine State.readByte_congr h.cfg ?_
  rw [h.mem, Memory.read_writeBytes_outside _ _ _ _ (by simpa using hx)]

/-- R55: the word reads back. -/
theorem Stored.readWord : t.readWord a = some w := by
  rw [State.readWord_of_inRange h.wordInRange, h.mem, Memory.readWord_writeBytes]

end

theorem stored_of_writeWord {s t : State} {a : Nat} {w : Word} (h : s.writeWord a w = some t) : Stored s t a w := by
  obtain ⟨hrange, rfl⟩ := State.writeWord_some h
  exact ⟨rfl, rfl, hrange⟩

/-! ### A word that is read -/

theorem byteOf_readWord (m : Memory) (a k : Nat) (hk : k < 8) : byteOf (m.readWord a) k = m.read (a + k) := by
  have hbytes : wordBytes (m.readWord a) = m.readBytes a 8 := wordBytes_wordOfBytes ..
  rw [← wordBytes_getElem _ k hk]
  simp only [hbytes, Memory.readBytes_getElem]

theorem State.readByte_of_readWord {s : State} {a : Nat} {w : Word} (h : s.readWord a = some w) (k : Nat) (hk : k < 8) :
    s.readByte (a + k) = some (w.extractLsb' (8 * k) 8) := by
  obtain ⟨hrange, rfl⟩ := State.readWord_some h
  have hbyte : s.byteInRange (a + k) := by
    simp only [State.wordInRange, State.byteInRange] at *
    omega
  rw [State.readByte_of_inRange hbyte, ← byteOf_readWord s.mem a k hk, byteOf]

/-- Settles O51: a completed word write stores the word, and a word that is read is its eight bytes. -/
theorem wordsAreLittleEndianBytes : Obligations.WordsAreLittleEndianBytes := by
  intro s t a w
  refine ⟨fun h => ?_, fun h => State.readByte_of_readWord h⟩
  have hstored := stored_of_writeWord h
  exact ⟨hstored.readByte_inside, hstored.readByte_outside, hstored.readWord⟩

/-! ### Ranges (R52, R53) -/

theorem State.isSome_readByte (s : State) (a : Nat) : (s.readByte a).isSome ↔ a < s.cfg.memSize := by
  rw [State.readByte, Option.isSome_ite]

theorem State.isSome_writeByte (s : State) (a : Nat) (b : Byte) : (s.writeByte a b).isSome ↔ a < s.cfg.memSize := by
  rw [State.writeByte, Option.isSome_ite]

theorem State.isSome_readWord (s : State) (a : Nat) : (s.readWord a).isSome ↔ a + 8 ≤ s.cfg.memSize := by
  rw [State.readWord, Option.isSome_ite]

theorem State.isSome_writeWord (s : State) (a : Nat) (w : Word) : (s.writeWord a w).isSome ↔ a + 8 ≤ s.cfg.memSize := by
  rw [State.writeWord, Option.isSome_ite]

/-- Settles O52: each primitive asks its range and nothing else; the last of a word's eight bytes bounds the others. -/
theorem accessesSucceedExactlyInRange : Obligations.AccessesSucceedExactlyInRange := by
  intro s a b w
  refine ⟨s.isSome_readByte a, s.isSome_writeByte a b, ?_, s.isSome_writeWord a w⟩
  simp only [State.isSome_readWord, State.isSome_readByte]
  refine ⟨fun h k hk => ?_, fun h => ?_⟩
  · omega
  · have := h 7 (by omega)
    omega

/-! ### Canonical lists -/

/-- A canonical list holds exactly the cells that read as something else than an unlisted byte. -/
theorem Memory.mem_iff_read {m : Memory} (h : m.wf) (c : Host.Cell) : c ∈ m ↔ m.read c.1 = c.2 ∧ c.2 ≠ unlistedByte := by
  obtain ⟨hrising, hlisted⟩ := h
  refine ⟨fun hc => ⟨Memory.read_eq_of_mem hrising hc, hlisted c hc⟩, fun ⟨hread, hne⟩ => ?_⟩
  by_contra hc
  have hunlisted : ∀ d ∈ m, d.1 ≠ c.1 := by
    intro d hd heq
    have hdc : d = c := Prod.ext heq ((Memory.read_eq_of_mem hrising hd).symm.trans (heq ▸ hread))
    exact hc (hdc ▸ hd)
  exact hne (hread.symm.trans (Memory.read_unlisted hunlisted))

theorem Memory.nodup_of_wf {m : Memory} (h : m.wf) : m.Nodup := 
  List.Pairwise.imp (fun hlt => ne_of_apply_ne Prod.fst (ne_of_lt hlt)) h.1

/-- Settles O53: two lists with the same reads hold the same cells, and a strictly rising list is determined by its cells. -/
theorem canonicalMemoriesThatReadAlikeAreEqual : Obligations.CanonicalMemoriesThatReadAlikeAreEqual := by
  intro m n hm hn hread
  have hcells : ∀ c, c ∈ m ↔ c ∈ n := fun c => by rw [Memory.mem_iff_read hm, Memory.mem_iff_read hn, hread]
  have hperm : m.Perm n := (List.perm_ext_iff_of_nodup (Memory.nodup_of_wf hm) (Memory.nodup_of_wf hn)).2 hcells
  exact hperm.eq_of_pairwise (fun c d _ _ hcd hdc => by omega) hm.1 hn.1

end Sys2Proof.Machine
end

section
/-! SUPPORT. The instructions that reach memory: rmmovq and mrmovq (44_moves.md R201, R202, R205), call and ret
(45_control_transfer.md R230-R232), pushq and popq (46_stack.md R250-R256). Each of them is one word access: in range it completes,
out of range it is BAD_ADDRESS. -/

namespace Sys2Proof.Machine

theorem raiseBadAddress_eq (a : Nat) (s : State) : raiseBadAddress a s = { s with status := .badAddress } := rfl

/-! ### The effective address -/

/-- Settles O14: in range the word of x[rA] is stored at the effective address. -/
theorem rmmovqStoresWord : Obligations.RmmovqStoresWord := by
  intro ifun rA rB d s
  refine ⟨rfl, fun h => ?_, fun h => ?_⟩
  · have hexec := execRmmovq_of_inRange ifun rA h
    have hstored : Stored s
        ({ s with mem := s.mem.writeBytes (s.dataAddress rB d).toNat (wordBytes (s.readReg rA)) }.advance 10)
        (s.dataAddress rB d).toNat (s.readReg rA) := ⟨rfl, rfl, h⟩
    exact ⟨_, hexec, hstored.readByte_inside, hstored.readByte_outside, rfl, fun _ => rfl, rfl, rfl, rfl⟩
  · exact execRmmovq_of_outOfRange ifun rA h.not_ge

/-- Settles O15: in range x[rA] becomes the word read at the effective address. -/
theorem mrmovqLoadsWord : Obligations.MrmovqLoadsWord := by
  intro ifun rA rB d s
  refine ⟨rfl, fun h => ?_, fun h => ?_⟩
  · have hexec := execMrmovq_of_inRange ifun rA h
    refine ⟨_, hexec, ?_, rfl, fun r hr => s.writeReg_readReg_ne rA r _ hr, fun _ => rfl, rfl, rfl, rfl⟩
    simp only [State.advance_readReg, State.writeReg_readReg_same]
    exact State.readByte_of_readWord (State.readWord_of_inRange h)
  · exact execMrmovq_of_outOfRange ifun rA h.not_ge

/-- The 8-byte field reaches rmmovq's outcome through the effective address alone. -/
theorem execRmmovq_congr {s : State} {rB : RegId} {d e : Word} (h : s.dataAddress rB d = s.dataAddress rB e) (f : Nybble)
    (rA : RegId) : execRmmovq f rA rB d s = execRmmovq f rA rB e s := by simp only [execRmmovq, h]

theorem execMrmovq_congr {s : State} {rB : RegId} {d e : Word} (h : s.dataAddress rB d = s.dataAddress rB e) (f : Nybble)
    (rA : RegId) : execMrmovq f rA rB d s = execMrmovq f rA rB e s := by simp only [execMrmovq, h]

/-- Settles O16: without ADD_DISPLACEMENT every field gives the address x[rB]. -/
theorem displacementCountsOnlyWhenAdded : Obligations.DisplacementCountsOnlyWhenAdded := by
  intro ifun rA rB d e s
  refine ⟨fun hoff => ?_, fun hon => ?_⟩
  · have haddr (x : Word) : s.dataAddress rB x = s.readReg rB := by simp [State.dataAddress, effectiveAddress, hoff]
    have hde : s.dataAddress rB d = s.dataAddress rB e := (haddr d).trans (haddr e).symm
    exact ⟨haddr d, execRmmovq_congr hde ifun rA, execMrmovq_congr hde ifun rA⟩
  · have haddr : s.dataAddress rB d = s.readReg rB + d := by simp [State.dataAddress, effectiveAddress, hon]
    rw [haddr, BitVec.toNat_add]

/-! ### A push -/

/-- The state t is s with v pushed (R255), but for the pc. -/
structure Pushed (s t : State) (v : Word) : Prop where
  stored : Stored s t s.pushAddress.toNat v
  sp : t.readReg s.cfg.spIndex = s.pushAddress
  regs : ∀ r, r ≠ s.cfg.spIndex → t.readReg r = s.readReg r
  cc : t.cc = s.cc
  status : t.status = s.status

/-- call and pushq both end with a move of pc after the push. -/
theorem pushed_setPc {s : State} (v pc : Word) (h : s.wordInRange s.pushAddress.toNat) :
    Pushed s (({ s with mem := s.mem.writeBytes s.pushAddress.toNat (wordBytes v) }.writeSp s.pushAddress).setPc pc) v where
  stored := ⟨rfl, rfl, h⟩
  sp := State.writeReg_readReg_same _ s.cfg.spIndex _
  regs r hr := State.writeReg_readReg_ne _ s.cfg.spIndex r _ hr
  cc := rfl
  status := rfl

theorem exec_call_of_inRange {s : State} (f : Nybble) (d : Word) (h : s.wordInRange s.pushAddress.toNat) :
    ∃ t, exec (.call f d) s = .next t ∧ Pushed s t (s.pc + 9) ∧ t.pc = d :=
  ⟨_, execCall_of_inRange f d h, pushed_setPc _ d h, rfl⟩

theorem exec_pushq_of_inRange {s : State} (f : Nybble) (rA : RegId) (x : Nybble) (h : s.wordInRange s.pushAddress.toNat) :
    ∃ t, exec (.pushq f rA x) s = .next t ∧ Pushed s t (s.pushValue rA) ∧ t.pc = s.pc + 2 :=
  ⟨_, execPushq_of_inRange f rA x h, pushed_setPc _ (s.pc + 2) h, rfl⟩

/-- Settles O18: call pushes the return address and jumps. -/
theorem callPushesReturnAddress : Obligations.CallPushesReturnAddress := by
  intro ifun dest s
  refine ⟨rfl, fun h => ?_, fun h => ?_⟩
  · obtain ⟨t, hexec, hpushed, hpc⟩ := exec_call_of_inRange ifun dest h
    exact ⟨t, hexec, hpushed.stored.readByte_inside, hpushed.stored.readByte_outside, hpushed.sp, hpc, hpushed.regs,
      hpushed.cc, hpushed.status, hpushed.stored.cfg⟩
  · exact execCall_of_outOfRange ifun dest h.not_ge

theorem State.pushValue_of_sequential {s : State} {rA : RegId}
    (h : rA = s.cfg.spIndex ∧ s.cfg.spOperandMode = .sequential) : s.pushValue rA = s.readReg rA - 8 := by
  rw [State.pushValue, if_pos h, h.1, State.pushAddress, State.sp]

theorem State.pushValue_of_not_sequential {s : State} {rA : RegId}
    (h : ¬ (rA = s.cfg.spIndex ∧ s.cfg.spOperandMode = .sequential)) : s.pushValue rA = s.readReg rA := if_neg h

/-- Settles O21: pushq pushes the value R250 names. -/
theorem pushqStoresRegister : Obligations.PushqStoresRegister := by
  intro ifun rB rA s
  refine ⟨rfl, fun h => ?_, fun h => ?_⟩
  · obtain ⟨t, hexec, hpushed, hpc⟩ := exec_pushq_of_inRange ifun rA rB h
    exact ⟨t, s.pushValue rA, hexec, State.pushValue_of_sequential, State.pushValue_of_not_sequential,
      hpushed.stored.readByte_inside, hpushed.stored.readByte_outside, hpushed.sp, hpc, hpushed.regs, hpushed.cc,
      hpushed.status, hpushed.stored.cfg⟩
  · exact execPushq_of_outOfRange ifun rA rB h.not_ge

/-! ### A pop -/

/-- Settles O19: ret takes the pc from the word at SP. -/
theorem retPopsPc : Obligations.RetPopsPc := by
  refine ⟨rfl, fun ifun s => ⟨fun h => ?_, fun h => ?_⟩⟩
  · exact ⟨_, execRet_of_inRange ifun h, State.readWord_of_inRange h, s.writeReg_readReg_same _ _,
      fun r hr => s.writeReg_readReg_ne _ r _ hr, fun _ => rfl, rfl, rfl, rfl⟩
  · exact execRet_of_outOfRange ifun h.not_ge

/-- Settles O22: popq writes the word at SP and the moved SP in the order R251 gives. -/
theorem popqLoadsRegister : Obligations.PopqLoadsRegister := by
  intro ifun rB rA s
  refine ⟨rfl, fun h => ?_, fun h => ?_⟩
  · refine ⟨_, s.mem.readWord s.sp.toNat, execPopq_of_inRange ifun rA rB h, State.readWord_of_inRange h, ?_⟩
    simp only [State.advance_readReg, State.popInto_readReg]
    refine ⟨fun hne => ⟨?_, ?_⟩, fun heq hmode => ?_, fun heq hmode => ?_, ?_, fun r hr hsp => ?_, fun a => ?_, ?_, ?_, ?_⟩
    · simp [hne]
    · simp [hne, Ne.symm hne, State.sp]
    · simp [heq, hmode]
    · simp [heq, hmode]
    · simp
    · simp [hr, hsp]
    · exact State.readByte_congr (by simp) (by simp)
    · simp
    · simp
    · simp
  · exact execPopq_of_outOfRange ifun rA rB h.not_ge

/-! ### A push, then a pop -/

/-- What a pop reads in a state that kept a pushed word and the SP at it. -/
theorem readWord_sp_of_kept {s t u : State} {v : Word} (hpushed : Pushed s t v) (hcfg : u.cfg = t.cfg)
    (hsp : u.readReg s.cfg.spIndex = t.readReg s.cfg.spIndex)
    (hword : u.readWord (t.readReg s.cfg.spIndex).toNat = t.readWord (t.readReg s.cfg.spIndex).toNat) :
    u.sp = s.pushAddress ∧ u.readWord u.sp.toNat = some v := by
  have husp : u.sp = s.pushAddress := by
    rw [State.sp, hcfg, hpushed.stored.cfg, hsp, hpushed.sp]
  rw [hpushed.sp, hpushed.stored.readWord] at hword
  exact ⟨husp, husp ▸ hword⟩

theorem State.pushAddress_add_eight (s : State) : s.pushAddress + 8 = s.sp := BitVec.sub_add_cancel s.sp 8

/-- Settles O20: ret reads the return address that the call pushed. -/
theorem callThenRetReturns : Obligations.CallThenRetReturns := by
  intro f g dest s t u hrange hcall hcfg hsp hword
  obtain ⟨t', hexec, hpushed, -⟩ := exec_call_of_inRange f dest hrange
  obtain rfl : t = t' := Host.Outcome.next.inj (hcall.symm.trans hexec)
  obtain ⟨husp, htop⟩ := readWord_sp_of_kept hpushed hcfg hsp hword
  obtain ⟨hinRange, hread⟩ := State.readWord_some htop
  refine ⟨_, execRet_of_inRange g hinRange, hread.symm, ?_⟩
  rw [State.setPc_readReg, State.writeSp_readReg, hcfg, hpushed.stored.cfg, if_pos rfl, husp]
  exact s.pushAddress_add_eight

/-- The popq after a pushq: it pops the pushed value. -/
theorem exec_popq_of_pushed {s t : State} {v : Word} (hpushed : Pushed s t v) (g : Nybble) (rC : RegId) (y : Nybble) :
    exec (.popq g rC y) t = .next ((t.popInto rC v).advance 2) := by
  obtain ⟨-, htop⟩ := readWord_sp_of_kept hpushed rfl rfl rfl
  obtain ⟨hinRange, hread⟩ := State.readWord_some htop
  rw [hread]
  exact execPopq_of_inRange g rC y hinRange

/-- The registers after a pop of v into rC from a state in which v was pushed: SP is back, unless rC is the stack pointer. -/
theorem popInto_readReg_of_pushed {s t : State} {v : Word} (hpushed : Pushed s t v) (rC r : RegId) :
    (t.popInto rC v).readReg r =
      if r = rC ∧ rC ≠ s.cfg.spIndex then v
      else if r = s.cfg.spIndex then
        (if rC = s.cfg.spIndex then (if s.cfg.spOperandMode = .sequential then v + 8 else v) else s.sp)
      else s.readReg r := by
  have hsp : t.sp + 8 = s.sp := by
    rw [State.sp, hpushed.stored.cfg, hpushed.sp, State.pushAddress_add_eight]
  rw [State.popInto_readReg, hpushed.stored.cfg, hsp]
  by_cases hr : r = s.cfg.spIndex
  · simp only [hr, if_true]
  · rw [hpushed.regs r hr]

/-- Popping the register whose push value is on the stack gives every register back, in both settings of SP_OPERAND_MODE: under
`sequential` the decremented SP is pushed and the pop adds 8, under `y86` the old SP itself is pushed. -/
theorem readReg_pushValue_popped (s : State) (rA r : RegId) :
    (if r = rA ∧ rA ≠ s.cfg.spIndex then s.pushValue rA
      else if r = s.cfg.spIndex then
        (if rA = s.cfg.spIndex then (if s.cfg.spOperandMode = .sequential then s.pushValue rA + 8 else s.pushValue rA)
          else s.sp)
      else s.readReg r) = s.readReg r := by
  by_cases hA : rA = s.cfg.spIndex
  · by_cases hr : r = s.cfg.spIndex
    · by_cases hmode : s.cfg.spOperandMode = .sequential
      · simp [hA, hr, hmode, State.pushValue_of_sequential]
      · simp [hA, hr, hmode, State.pushValue_of_not_sequential]
    · simp [hA, hr]
  · rw [State.pushValue_of_not_sequential fun h => hA h.1]
    by_cases hrA : r = rA
    · simp [hrA, hA]
    · by_cases hr : r = s.cfg.spIndex
      · simp [hA, Ne.symm hA, hr, State.sp]
      · simp [hrA, hr]

/-- Settles O23: the pop reads the pushed value, and where SP itself is pushed and popped both settings give SP back. -/
theorem pushThenPopRestores : Obligations.PushThenPopRestores := by
  intro f g x y rA rC s t hrange hpush
  obtain ⟨t', hexec, hpushed, hpc⟩ := exec_pushq_of_inRange f rA x hrange
  obtain rfl : t = t' := Host.Outcome.next.inj (hpush.symm.trans hexec)
  have hpop := exec_popq_of_pushed hpushed g (y := y)
  have hregs := popInto_readReg_of_pushed hpushed
  refine ⟨⟨_, hpop rA, fun r => ?_, fun a ha => ?_, ?_, ?_, ?_, ?_⟩, fun hA hC => ⟨_, hpop rC, ?_, ?_⟩⟩
  · rw [State.advance_readReg, hregs]
    exact readReg_pushValue_popped s rA r
  · rw [← hpushed.stored.readByte_outside a ha]
    exact State.readByte_congr (t.popInto_cfg rA _) (congrArg (Memory.read · a) (t.popInto_mem rA _))
  · rw [State.advance_cc, State.popInto_cc, hpushed.cc]
  · rw [State.advance_status, State.popInto_status, hpushed.status]
  · rw [State.advance_cfg, State.popInto_cfg, hpushed.stored.cfg]
  · rw [State.advance_pc, State.popInto_pc, hpc, BitVec.add_assoc]
    rfl
  · rw [State.advance_readReg, hregs, if_pos ⟨rfl, hC⟩, State.pushValue_of_not_sequential fun h => hA h.1]
  · rw [State.advance_readReg, hregs, if_neg fun h => hC h.1.symm, if_pos rfl, if_neg hC, State.sp]

end Sys2Proof.Machine
end

section
/-! SUPPORT. What an executed instruction can do, said once: it completes within its footprint (10_state.md and 20_memory.md, the tables of
what each instruction writes), or it is one of the events of 60_exceptions.md, or it aborts. -/

namespace Sys2Proof.Machine

/-! ### The footprint of an instruction -/

/-- The registers an instruction may write (10_state.md R26). -/
def WritesReg (cfg : Config) (r : RegId) : Instr → Prop
  | .rrmovq _ rB | .cmovle _ rB | .cmovl _ rB | .cmove _ rB | .cmovne _ rB | .cmovge _ rB | .cmovg _ rB => r = rB
  | .irmovq _ _ rB _ => r = rB
  | .mrmovq _ rA _ _ => r = rA
  | .addq _ rB | .subq _ rB | .andq _ rB | .xorq _ rB => r = rB
  | .call _ _ | .ret _ | .pushq _ _ _ => r = cfg.spIndex
  | .popq _ rA _ => r = rA ∨ r = cfg.spIndex
  | _ => False

/-- The address of the word an instruction stores (20_memory.md R59). -/
def storeAddress (s : State) : Instr → Option Nat
  | .rmmovq _ _ rB d => some (s.dataAddress rB d).toNat
  | .call _ _ | .pushq _ _ _ => some s.pushAddress.toNat
  | _ => none

/-- The values pc may have after an instruction (10_state.md R21). -/
def PcAfter (s : State) (pc : Word) : Instr → Prop
  | .jmp d | .jle d | .jl d | .je d | .jne d | .jge d | .jg d => pc = d ∨ pc = s.pc + 9
  | .call _ d => pc = d
  | .ret _ => s.readWord s.sp.toNat = some pc
  | i => pc = s.pc + BitVec.ofNat 64 i.length

/-- An instruction took the state s to t without an event. -/
structure Completed (i : Instr) (s t : State) : Prop where
  cfg : t.cfg = s.cfg
  status : t.status = s.status
  regs : ∀ r, t.readReg r ≠ s.readReg r → WritesReg s.cfg r i
  mem : t.mem = s.mem ∨ ∃ a w, storeAddress s i = some a ∧ Stored s t a w
  pc : PcAfter s t.pc i

/-- The rows that are no instruction (60_exceptions.md R263). -/
def Reserved : Instr → Prop
  | .op1Undef4to7 _ | .op1Undef8to15 _ | .unknownIcode _ _ => True
  | _ => False

/-- Everything an instruction that gives a next state can have done. -/
inductive ExecNext (i : Instr) (s : State) : State → Prop
  | completed {t : State} (h : Completed i s t) : ExecNext i s t
  | halted (ifun : Nybble) (h : i = .halt ifun) : ExecNext i s { s with status := .halted }
  | badAddress : ExecNext i s { s with status := .badAddress }
  | badInstruction (h : Reserved i) : ExecNext i s { s with status := .badInstruction, pc := s.pc + 1 }

/-! ### The shared rules -/

/-- An instruction that writes one register. -/
theorem completed_of_writeReg {i : Instr} {s t : State} {rB : RegId} {v : Word} (hcfg : t.cfg = s.cfg)
    (hstatus : t.status = s.status) (hregs : ∀ r, t.readReg r = (s.writeReg rB v).readReg r) (hmem : t.mem = s.mem)
    (hw : WritesReg s.cfg rB i) (hpc : PcAfter s t.pc i) : Completed i s t where
  cfg := hcfg
  status := hstatus
  regs r hr := by
    by_cases h : r = rB
    · exact h ▸ hw
    · exact absurd ((hregs r).trans (s.writeReg_readReg_ne rB r v h)) hr
  mem := .inl hmem
  pc := hpc

/-- An instruction that moves pc alone. -/
theorem completed_setPc {i : Instr} {s : State} {pc : Word} (hpc : PcAfter s pc i) : Completed i s (s.setPc pc) where
  cfg := rfl
  status := rfl
  regs _ hr := absurd rfl hr
  mem := .inl rfl
  pc := hpc

theorem completed_of_pushed {i : Instr} {s t : State} {v : Word} (h : Pushed s t v)
    (hstore : storeAddress s i = some s.pushAddress.toNat) (hw : WritesReg s.cfg s.cfg.spIndex i) (hpc : PcAfter s t.pc i) :
    Completed i s t where
  cfg := h.stored.cfg
  status := h.status
  regs r hr := by
    by_cases hsp : r = s.cfg.spIndex
    · exact hsp ▸ hw
    · exact absurd (h.regs r hsp) hr
  mem := .inr ⟨_, v, hstore, h.stored⟩
  pc := hpc

theorem completed_conditionalMove {i : Instr} {c : Cond} {rA rB : RegId} {s t : State} (h : conditionalMove c rA rB s = .next t)
    (hw : WritesReg s.cfg rB i) (hpc : PcAfter s (s.pc + 2) i) : Completed i s t := by
  rw [conditionalMove_eq_writeReg] at h
  cases h
  exact completed_of_writeReg rfl rfl (fun _ => rfl) rfl hw hpc

theorem completed_op1 {i : Instr} {alu : Word → Word → Word × Flags} {rA rB : RegId} {s t : State}
    (h : op1 alu rA rB s = .next t) (hw : WritesReg s.cfg rB i) (hpc : PcAfter s (s.pc + 2) i) : Completed i s t := by
  cases h
  exact completed_of_writeReg rfl rfl (fun _ => rfl) rfl hw hpc

theorem conditionalJump_eq (c : Cond) (dest : Word) (s : State) :
    conditionalJump c dest s = .next { s with pc := if condHolds c s.cc then dest else s.pc + 9 } := by
  rw [conditionalJump]
  by_cases hc : condHolds c s.cc = true
  · rw [if_pos hc, if_pos hc]
    rfl
  · rw [if_neg hc, if_neg hc]
    rfl

theorem completed_conditionalJump {i : Instr} {c : Cond} {d : Word} {s t : State} (h : conditionalJump c d s = .next t)
    (htaken : PcAfter s d i) (hnot : PcAfter s (s.pc + 9) i) : Completed i s t := by
  rw [conditionalJump_eq] at h
  cases h
  refine completed_setPc ?_
  split
  · exact htaken
  · exact hnot

/-- An instruction with one word access, in range and out of range. -/
theorem execNext_of_wordAccess {i : Instr} {s t : State} {o : Host.Outcome State Fault Refusal} {a : Nat} (ho : o = .next t)
    (hin : s.wordInRange a → ∃ g, o = .next g ∧ Completed i s g)
    (hout : ¬ s.wordInRange a → o = .next { s with status := .badAddress }) : ExecNext i s t := by
  by_cases ha : s.wordInRange a
  · obtain ⟨g, hg, hcompleted⟩ := hin ha
    obtain rfl : t = g := Host.Outcome.next.inj (ho.symm.trans hg)
    exact .completed hcompleted
  · obtain rfl := Host.Outcome.next.inj (ho.symm.trans (hout ha))
    exact .badAddress

/-! ### The instructions -/

theorem completed_rmmovq {s : State} (f : Nybble) (rA : RegId) {rB : RegId} {d : Word}
    (h : s.wordInRange (s.dataAddress rB d).toNat) :
    ∃ t, exec (.rmmovq f rA rB d) s = .next t ∧ Completed (.rmmovq f rA rB d) s t :=
  ⟨_, execRmmovq_of_inRange f rA h,
    { cfg := rfl, status := rfl, regs := fun _ hr => absurd rfl hr, mem := .inr ⟨_, _, rfl, rfl, rfl, h⟩, pc := rfl }⟩

theorem completed_mrmovq {s : State} (f : Nybble) (rA : RegId) {rB : RegId} {d : Word}
    (h : s.wordInRange (s.dataAddress rB d).toNat) :
    ∃ t, exec (.mrmovq f rA rB d) s = .next t ∧ Completed (.mrmovq f rA rB d) s t :=
  ⟨_, execMrmovq_of_inRange f rA h, completed_of_writeReg rfl rfl (fun _ => rfl) rfl rfl rfl⟩

theorem completed_call {s : State} (f : Nybble) (d : Word) (h : s.wordInRange s.pushAddress.toNat) :
    ∃ t, exec (.call f d) s = .next t ∧ Completed (.call f d) s t := by
  obtain ⟨t, hexec, hpushed, hpc⟩ := exec_call_of_inRange f d h
  exact ⟨t, hexec, completed_of_pushed hpushed rfl rfl hpc⟩

theorem completed_pushq {s : State} (f : Nybble) (rA : RegId) (x : Nybble) (h : s.wordInRange s.pushAddress.toNat) :
    ∃ t, exec (.pushq f rA x) s = .next t ∧ Completed (.pushq f rA x) s t := by
  obtain ⟨t, hexec, hpushed, hpc⟩ := exec_pushq_of_inRange f rA x h
  exact ⟨t, hexec, completed_of_pushed hpushed rfl rfl hpc⟩

theorem completed_ret {s : State} (f : Nybble) (h : s.wordInRange s.sp.toNat) :
    ∃ t, exec (.ret f) s = .next t ∧ Completed (.ret f) s t :=
  ⟨_, execRet_of_inRange f h,
    completed_of_writeReg rfl rfl (fun _ => rfl) rfl rfl (State.readWord_of_inRange h)⟩

theorem completed_popq {s : State} (f : Nybble) (rA : RegId) (x : Nybble) (h : s.wordInRange s.sp.toNat) :
    ∃ t, exec (.popq f rA x) s = .next t ∧ Completed (.popq f rA x) s t := by
  refine ⟨_, execPopq_of_inRange f rA x h,
    { cfg := s.popInto_cfg rA _, status := s.popInto_status rA _, regs := fun r hr => ?_,
      mem := .inl (s.popInto_mem rA _), pc := congrArg (· + 2) (s.popInto_pc rA _) }⟩
  by_contra hw
  obtain ⟨hrA, hsp⟩ := not_or.1 hw
  rw [State.advance_readReg, State.popInto_readReg, if_neg fun h => hrA h.1, if_neg hsp] at hr
  exact hr rfl

theorem exec_next_cases {i : Instr} {s t : State} (h : exec i s = .next t) : ExecNext i s t := by
  cases i with
  | halt f => cases h; exact .halted f rfl
  | nop => cases h; exact .completed (completed_setPc rfl)
  | rrmovq | cmovle | cmovl | cmove | cmovne | cmovge | cmovg => exact .completed (completed_conditionalMove h rfl rfl)
  | jmp | jle | jl | je | jne | jge | jg => exact .completed (completed_conditionalJump h (.inl rfl) (.inr rfl))
  | addq | subq | andq | xorq => exact .completed (completed_op1 h rfl rfl)
  | irmovq => cases h; exact .completed (completed_of_writeReg rfl rfl (fun _ => rfl) rfl rfl rfl)
  | rmmovq f rA => exact execNext_of_wordAccess h (completed_rmmovq f rA) (execRmmovq_of_outOfRange f rA)
  | mrmovq f rA => exact execNext_of_wordAccess h (completed_mrmovq f rA) (execMrmovq_of_outOfRange f rA)
  | call f d => exact execNext_of_wordAccess h (completed_call f d) (execCall_of_outOfRange f d)
  | pushq f rA x => exact execNext_of_wordAccess h (completed_pushq f rA x) (execPushq_of_outOfRange f rA x)
  | ret f => exact execNext_of_wordAccess h (completed_ret f) (execRet_of_outOfRange f)
  | popq f rA x => exact execNext_of_wordAccess h (completed_popq f rA x) (execPopq_of_outOfRange f rA x)
  | cmovUndef7 | cmovUndef8to15 | jxxUndef7 | jxxUndef8to15 => cases h
  | op1Undef4to7 | op1Undef8to15 | unknownIcode => cases h; exact .badInstruction trivial

/-- Settles O24: an event writes no register, and what completes writes those of its footprint. -/
theorem registerWriteFootprint : Obligations.RegisterWriteFootprint := by
  intro i s t r h hr
  have hw : WritesReg s.cfg r i := by
    cases exec_next_cases h with
    | completed hc => exact hc.regs r hr
    | halted | badAddress | badInstruction => exact absurd rfl hr
  cases i <;> exact hw

theorem Completed.readByte_eq {i : Instr} {s t : State} (h : Completed i s t) {a : Nat}
    (ha : ∀ b, storeAddress s i = some b → a < b ∨ b + 8 ≤ a) : t.readByte a = s.readByte a := by
  rcases h.mem with hmem | ⟨b, w, hb, hstored⟩
  · exact State.readByte_congr h.cfg (congrArg (Memory.read · a) hmem)
  · exact hstored.readByte_outside a (ha b hb)

/-- Settles O25: an event writes no byte, and what completes writes the word at its store address, if it has one. -/
theorem memoryWriteFootprint : Obligations.MemoryWriteFootprint := by
  intro i s t a h ha
  have hstore : ∃ b, storeAddress s i = some b ∧ b ≤ a ∧ a < b + 8 := by
    cases exec_next_cases h with
    | completed hc =>
      by_contra hno
      refine ha (hc.readByte_eq fun b hb => ?_)
      by_contra hin
      exact hno ⟨b, hb, by omega⟩
    | halted | badAddress | badInstruction => exact absurd rfl ha
  obtain ⟨b, hb, hin⟩ := hstore
  cases i with
  | rmmovq | call | pushq => cases hb; exact hin
  | _ => cases hb

/-- Settles O26: a status that stays OK leaves the completed instruction, whose encoding is as long as the instruction. -/
theorem pcMovesByTheEncodedLength : Obligations.PcMovesByTheEncodedLength := by
  intro i s t _ h hok
  have hpc : PcAfter s t.pc i := by
    cases exec_next_cases h with
    | completed hc => exact hc.pc
    | halted | badAddress | badInstruction => cases hok
  cases i <;> exact hpc

/-- Settles O27: no meaning names the fields. -/
theorem unusedFieldsHaveNoEffect : Obligations.UnusedFieldsHaveNoEffect := by
  intro f g x y rA rB v s
  exact ⟨rfl, rfl, rfl, rfl, rfl, rfl, rfl, rfl, rfl⟩

/-- Settles O41: each of the three rows is the BAD_INSTRUCTION event. -/
theorem reservedRowsRaiseBadInstruction : Obligations.ReservedRowsRaiseBadInstruction := by
  rintro l2 l3 f s i (rfl | rfl | rfl)
  · exact ⟨_, rfl, rfl⟩
  · exact ⟨_, rfl, rfl⟩
  · exact ⟨_, rfl, rfl⟩

/-! ### The jumps and the selectors (R190, R220) -/

/-- The bytes of a jump at the default `ICODE_MAP`: icode 7 (R75). -/
theorem encodeF9_jxx_defaultConfig (sel : Nybble) (dest : Word) :
    encodeF9 defaultConfig .jxx sel dest = byteOfNybbles 7 sel :: wordBytes dest := rfl

/-- Settles O17: each of the seven is the shared rule at its own condition, encoded with the selector that the default `COND_MAP`
gives the condition. -/
theorem jumpsSetPcWhenConditionHolds : Obligations.JumpsSetPcWhenConditionHolds := by
  intro dest s i opcode taken hi
  have hjump (c : Cond) := conditionalJump_eq c dest s
  simp only [List.mem_cons, List.not_mem_nil, or_false, Prod.mk.injEq] at hi
  obtain ⟨rfl, rfl, rfl⟩ | ⟨rfl, rfl, rfl⟩ | ⟨rfl, rfl, rfl⟩ | ⟨rfl, rfl, rfl⟩ | ⟨rfl, rfl, rfl⟩ | ⟨rfl, rfl, rfl⟩ |
    ⟨rfl, rfl, rfl⟩ := hi
  · exact ⟨encodeF9_jxx_defaultConfig 0 dest, _, hjump .always, rfl⟩
  · exact ⟨encodeF9_jxx_defaultConfig 1 dest, _, hjump .le, rfl⟩
  · exact ⟨encodeF9_jxx_defaultConfig 2 dest, _, hjump .lt, rfl⟩
  · exact ⟨encodeF9_jxx_defaultConfig 3 dest, _, hjump .eq, rfl⟩
  · exact ⟨encodeF9_jxx_defaultConfig 4 dest, _, hjump .ne, rfl⟩
  · exact ⟨encodeF9_jxx_defaultConfig 5 dest, _, hjump .ge, rfl⟩
  · exact ⟨encodeF9_jxx_defaultConfig 6 dest, _, hjump .gt, rfl⟩

theorem exec_cmovInstr {cfg : Config} {sel : Nybble} {c : Cond} (h : condOf cfg sel = some c) (rA rB : RegId) (s : State) :
    exec (cmovInstr cfg sel rA rB) s = conditionalMove c rA rB s := by
  cases c <;> simp only [cmovInstr, h] <;> rfl

theorem exec_jxxInstr {cfg : Config} {sel : Nybble} {c : Cond} (h : condOf cfg sel = some c) (dest : Word) (s : State) :
    exec (jxxInstr cfg sel dest) s = conditionalJump c dest s := by
  cases c <;> simp only [jxxInstr, h] <;> rfl

/-- The selector of a row that aborts (R136). -/
def undefinedSelector : Instr → Option Nybble
  | .cmovUndef7 _ _ | .jxxUndef7 _ => some 7
  | .cmovUndef8to15 low _ _ | .jxxUndef8to15 low _ => some (eightPlus low)
  | _ => none

theorem exec_of_undefinedSelector {i : Instr} {sel : Nybble} (h : undefinedSelector i = some sel) (s : State) :
    exec i s = .fault (.fatalAbort s.pc sel) := by
  cases i with
  | cmovUndef7 | cmovUndef8to15 | jxxUndef7 | jxxUndef8to15 => cases h; rfl
  | _ => cases h

theorem undefinedSelector_cmovInstr (cfg : Config) (sel : Nybble) (rA rB : RegId) :
    undefinedSelector (cmovInstr cfg sel rA rB) = if 7 ≤ sel then some sel else none := by
  split
  · next h =>
    rcases undefinedSelector_cases sel h with ⟨-, rfl⟩ | ⟨-, h8⟩
    · rw [cmovInstr_seven, undefinedSelector]
    · rw [← h8, cmovInstr_eightPlus, undefinedSelector]
  · next h =>
    obtain ⟨c, hc⟩ := Option.ne_none_iff_exists'.1 (mt (condOf_none_iff cfg sel).1 h)
    cases c <;> simp only [cmovInstr, hc, undefinedSelector]

theorem undefinedSelector_jxxInstr (cfg : Config) (sel : Nybble) (dest : Word) :
    undefinedSelector (jxxInstr cfg sel dest) = if 7 ≤ sel then some sel else none := by
  split
  · next h =>
    rcases undefinedSelector_cases sel h with ⟨-, rfl⟩ | ⟨-, h8⟩
    · rw [jxxInstr_seven, undefinedSelector]
    · rw [← h8, jxxInstr_eightPlus, undefinedSelector]
  · next h =>
    obtain ⟨c, hc⟩ := Option.ne_none_iff_exists'.1 (mt (condOf_none_iff cfg sel).1 h)
    cases c <;> simp only [jxxInstr, hc, undefinedSelector]

/-- evaluateCondition with a value: the selector has a condition, which has that value. -/
theorem condOf_of_evaluateCondition {cfg : Config} {sel : Nybble} {f : Flags} {b : Bool}
    (h : evaluateCondition cfg sel f = some b) : ∃ c, condOf cfg sel = some c ∧ condHolds c f = b :=
  Option.map_eq_some_iff.1 h

/-- Settles O58: a selector with a condition runs the shared rule of it, and one without is decoded to a row that aborts. -/
theorem selectorsRunTheSharedRules : Obligations.SelectorsRunTheSharedRules := by
  intro cfg sel rA rB dest s
  refine ⟨fun h => ?_, fun h => ?_, fun h => ?_⟩
  · obtain ⟨c, hc, hholds⟩ := condOf_of_evaluateCondition h
    rw [exec_cmovInstr hc, exec_jxxInstr hc, conditionalMove, conditionalJump_eq, hholds]
    exact ⟨rfl, rfl⟩
  · obtain ⟨c, hc, hholds⟩ := condOf_of_evaluateCondition h
    rw [exec_cmovInstr hc, exec_jxxInstr hc, conditionalMove, conditionalJump_eq, hholds]
    exact ⟨rfl, rfl⟩
  · have hsel := (evaluateCondition_none_iff cfg sel s.cc).1 h
    refine ⟨exec_of_undefinedSelector ?_ s, exec_of_undefinedSelector ?_ s⟩
    · rw [undefinedSelector_cmovInstr, if_pos hsel]
    · rw [undefinedSelector_jxxInstr, if_pos hsel]

/-! ### The outcomes of an instruction -/

theorem exists_next_of_wordAccess {o : Host.Outcome State Fault Refusal} {p : Prop} {g u : State} (hin : p → o = .next g)
    (hout : ¬ p → o = .next u) : ∃ t, o = .next t := by
  by_cases h : p
  · exact ⟨g, hin h⟩
  · exact ⟨u, hout h⟩

/-- An instruction without an undefined selector gives a next state. -/
theorem exec_completes {i : Instr} (h : undefinedSelector i = none) (s : State) : ∃ t, exec i s = .next t := by
  cases i with
  | rmmovq f rA => exact exists_next_of_wordAccess (execRmmovq_of_inRange f rA) (execRmmovq_of_outOfRange f rA)
  | mrmovq f rA => exact exists_next_of_wordAccess (execMrmovq_of_inRange f rA) (execMrmovq_of_outOfRange f rA)
  | call f d => exact exists_next_of_wordAccess (execCall_of_inRange f d) (execCall_of_outOfRange f d)
  | ret f => exact exists_next_of_wordAccess (execRet_of_inRange f) (execRet_of_outOfRange f)
  | pushq f rA x => exact exists_next_of_wordAccess (execPushq_of_inRange f rA x) (execPushq_of_outOfRange f rA x)
  | popq f rA x => exact exists_next_of_wordAccess (execPopq_of_inRange f rA x) (execPopq_of_outOfRange f rA x)
  | cmovUndef7 | cmovUndef8to15 | jxxUndef7 | jxxUndef8to15 => cases h
  | _ => exact ⟨_, rfl⟩

theorem exec_fault_iff {i : Instr} {s : State} {p : Word} {sel : Nybble} :
    exec i s = .fault (.fatalAbort p sel) ↔ p = s.pc ∧ undefinedSelector i = some sel := by
  cases hsel : undefinedSelector i with
  | none =>
    obtain ⟨t, ht⟩ := exec_completes hsel s
    simp [ht]
  | some sel' =>
    rw [exec_of_undefinedSelector hsel]
    simp [eq_comm]

end Sys2Proof.Machine
end

section
/-! SUPPORT. One step (40_cycle.md R100-R109) by what stands at pc: no byte, an illegal opcode byte, a legal one whose bytes run past
memory, or an instruction; and with that the causes of every event (60_exceptions.md R260-R266). -/

namespace Sys2Proof.Machine

/-! ### Fetching in the decoder's words -/

/-- Settles O33: the fetch finds what the bytes from pc decode to. -/
theorem stepRunsTheDecodedInstruction : Obligations.StepRunsTheDecodedInstruction := by
  intro s i rest hok hdecode
  have hfetch := fetchInstr_eq s
  rw [hdecode] at hfetch
  rw [step_of_ok hok, stepRunning_instr hfetch]

/-- Settles O34: the two rejections of the decoder are the two events of the fetch. -/
theorem stepOnUndecodableBytes : Obligations.StepOnUndecodableBytes := by
  intro s hok
  have hfetch := fetchInstr_eq s
  refine ⟨fun hdecode => ?_, fun c f hdecode => ?_⟩
  · rw [hdecode] at hfetch
    obtain ⟨a, hfetch⟩ := hfetch
    rw [step_of_ok hok, stepRunning_badAddress hfetch, raiseBadAddress_eq]
  · rw [hdecode] at hfetch
    rw [step_of_ok hok, stepRunning_badInstruction hfetch, raiseBadInstruction_eq]

/-! ### The opcode byte at pc -/

theorem step_of_no_opcode {s : State} (hok : s.status = .ok) (h : s.readByte s.pc.toNat = none) :
    step s = .next { s with status := .badAddress } := by
  have hfetch : s.fetchInstr = .badAddress s.pc.toNat := by rw [State.fetchInstr, h]
  rw [step_of_ok hok, stepRunning_badAddress hfetch, raiseBadAddress_eq]

/-- Settles O36: at or above MEM_SIZE there is no opcode byte. -/
theorem pcOutOfRangeIsBadAddress : Obligations.PcOutOfRangeIsBadAddress := by
  intro s hok hpc
  exact step_of_no_opcode hok (State.readByte_of_outOfRange (Nat.not_lt.2 hpc))

/-- The class checks of R106 against an opcode byte: it has no class, or its ifun is not legal for its class. -/
def IllegalOpcode (cfg : Config) (b : Byte) : Prop :=
  ∀ cls, classOf cfg (nybble b 1) = some cls → ¬ IfunLegal cfg cls (nybble b 0)

theorem step_of_illegal {s : State} {b : Byte} (hok : s.status = .ok) (hb : s.readByte s.pc.toNat = some b)
    (h : IllegalOpcode s.cfg b) : step s = .next { s with status := .badInstruction, pc := s.pc + 1 } := by
  have hfetch := fetchInstr_of_readByte hb
  cases hv : decodeOpcode s.cfg b with
  | whole i =>
    rw [hv] at hfetch
    rw [step_of_ok hok, stepRunning_instr hfetch]
    rcases decodeOpcode_whole hv with ⟨-, rfl⟩ | ⟨-, -, rfl⟩
    · rfl
    · rw [undefinedOp1]
      split <;> rfl
  | rejected r =>
    rw [hv] at hfetch
    rw [step_of_ok hok, stepRunning_badInstruction hfetch, raiseBadInstruction_eq]
  | operands cls ifun =>
    obtain ⟨hcls, rfl, hlegal⟩ := decodeOpcode_operands hv
    exact absurd hlegal (h cls hcls)

section
variable {s : State} {b : Byte} {cls : IClass} (hok : s.status = .ok) (hb : s.readByte s.pc.toNat = some b)
  (hcls : classOf s.cfg (nybble b 1) = some cls) (hlegal : IfunLegal s.cfg cls (nybble b 0))
include hok hb hcls hlegal

/-- A legal opcode byte whose instruction runs past memory (R105). -/
theorem step_of_legal_outOfRange (hlen : s.cfg.memSize < s.pc.toNat + cls.format.length) :
    step s = .next { s with status := .badAddress } := by
  have hpc : s.pc.toNat < s.cfg.memSize := (s.isSome_readByte _).1 (Option.isSome_of_eq_some hb)
  obtain ⟨⟨a, hoperands⟩, -⟩ := (fetchOperands_eq s cls.format hpc).2 hlen
  have hfetch := fetchInstr_of_readByte hb
  rw [decodeOpcode_of_ifunLegal hcls hlegal] at hfetch
  dsimp only at hfetch
  rw [hoperands] at hfetch
  rw [step_of_ok hok, stepRunning_badAddress hfetch, raiseBadAddress_eq]

/-- A legal opcode byte whose instruction lies in memory. -/
theorem step_of_legal_inRange (hlen : s.pc.toNat + cls.format.length ≤ s.cfg.memSize) :
    ∃ regByte valC, step s = exec (assemble s.cfg cls (nybble b 0) regByte valC) s := by
  have hpc : s.pc.toNat < s.cfg.memSize := (s.isSome_readByte _).1 (Option.isSome_of_eq_some hb)
  obtain ⟨regByte, valC, -, hoperands, -⟩ := (fetchOperands_eq s cls.format hpc).1 hlen
  have hfetch := fetchInstr_of_readByte hb
  rw [decodeOpcode_of_ifunLegal hcls hlegal] at hfetch
  dsimp only at hfetch
  rw [hoperands] at hfetch
  exact ⟨regByte, valC, by rw [step_of_ok hok, stepRunning_instr hfetch]⟩

end

/-- What stands at pc. -/
inductive AtPc (s : State) : Prop
  | noOpcode (h : s.readByte s.pc.toNat = none)
  | illegal (b : Byte) (hb : s.readByte s.pc.toNat = some b) (h : IllegalOpcode s.cfg b)
  | legal (b : Byte) (cls : IClass) (hb : s.readByte s.pc.toNat = some b) (hcls : classOf s.cfg (nybble b 1) = some cls)
    (hlegal : IfunLegal s.cfg cls (nybble b 0))

theorem atPc (s : State) : AtPc s := by
  cases hb : s.readByte s.pc.toNat with
  | none => exact .noOpcode hb
  | some b =>
    by_cases h : IllegalOpcode s.cfg b
    · exact .illegal b hb h
    · rw [IllegalOpcode] at h
      push Not at h
      obtain ⟨cls, hcls, hlegal⟩ := h
      exact .legal b cls hb hcls hlegal

/-! ### The class checks in the words of the statements -/

theorem three_lt_iff (ifun : Nybble) : 3 < ifun ↔ 4 ≤ ifun := by bv_omega

theorem readsIfun_eq_false_iff (cls : IClass) : cls.readsIfun = false ↔ some cls ∉ [some .cmov, some .op1, some .jxx] := by
  cases cls <;> decide

/-- The checks of R106 that can fail, on the nybbles: no class, no function of OP1, an unread ifun refused. -/
theorem illegalOpcode_iff (cfg : Config) (b : Byte) :
    IllegalOpcode cfg b ↔
      0xC ≤ b.extractLsb' 4 4 ∨ cfg.icodeMap[(b.extractLsb' 4 4).toNat]? = some .op1 ∧ 4 ≤ b.extractLsb' 0 4 ∨
        cfg.strictIfun = true ∧ b.extractLsb' 0 4 ≠ 0 ∧
          cfg.icodeMap[(b.extractLsb' 4 4).toNat]? ∉ [some .cmov, some .op1, some .jxx] := by
  change _ ↔ 0xC ≤ nybble b 1 ∨ classOf cfg (nybble b 1) = some .op1 ∧ 4 ≤ nybble b 0 ∨
    cfg.strictIfun = true ∧ nybble b 0 ≠ 0 ∧ classOf cfg (nybble b 1) ∉ [some .cmov, some .op1, some .jxx]
  rw [← classOf_none_iff cfg]
  cases hcls : classOf cfg (nybble b 1) with
  | none => simp [IllegalOpcode, hcls]
  | some cls =>
    rw [← readsIfun_eq_false_iff]
    simp only [IllegalOpcode, hcls, Option.some.injEq, forall_eq', IfunLegal, three_lt_iff, reduceCtorEq, false_or]
    tauto

/-- Settles O39: the ifun is no function of OP1. -/
theorem undefinedOp1FunctionIsBadInstruction : Obligations.UndefinedOp1FunctionIsBadInstruction := by
  intro s b hok hb hcls hifun
  exact step_of_illegal hok hb ((illegalOpcode_iff s.cfg b).2 (.inr (.inl ⟨hcls, hifun⟩)))

/-- Settles O40: the ifun is unread and not 0. -/
theorem strictIfunRefusesNonzeroIfun : Obligations.StrictIfunRefusesNonzeroIfun := by
  intro s b hok hstrict hb hcls hifun
  have hunread : s.cfg.icodeMap[(b.extractLsb' 4 4).toNat]? ∉ [some .cmov, some .op1, some .jxx] := by
    generalize s.cfg.icodeMap[(b.extractLsb' 4 4).toNat]? = c at hcls
    revert c
    decide
  exact step_of_illegal hok hb ((illegalOpcode_iff s.cfg b).2 (.inr (.inr ⟨hstrict, hifun, hunread⟩)))

/-- Settles O37: the class and its ifun are legal, and the length is that of the class's format. -/
theorem operandBytesOutOfRangeAreBadAddress : Obligations.OperandBytesOutOfRangeAreBadAddress := by
  intro s b length hok hb hclass hstrict hlen
  have hstep (cls : IClass) (hcls : classOf s.cfg (nybble b 1) = some cls) (hop1 : cls = .op1 → nybble b 0 ≤ 3)
      (hformat : cls.format.length = length) : step s = .next { s with status := .badAddress } := by
    have hlegal : IfunLegal s.cfg cls (nybble b 0) := by
      refine ⟨fun ⟨hc, h3⟩ => ?_, fun ⟨hs, hread, hifun⟩ => ?_⟩
      · exact absurd h3 (BitVec.not_lt.2 (hop1 hc))
      · have hunread := (readsIfun_eq_false_iff cls).1 hread
        rw [← hcls] at hunread
        exact hifun (hstrict hs hunread)
    exact step_of_legal_outOfRange hok hb hcls hlegal (hformat ▸ hlen)
  simp only [List.mem_cons, List.not_mem_nil, or_false] at hclass
  rcases hclass with ⟨rfl, hc | hc | hc⟩ | ⟨rfl, hc, h3⟩ | ⟨rfl, hc | hc⟩ | ⟨rfl, hc | hc | hc⟩
  · exact hstep .cmov hc nofun rfl
  · exact hstep .pushq hc nofun rfl
  · exact hstep .popq hc nofun rfl
  · exact hstep .op1 hc (fun _ => h3) rfl
  · exact hstep .jxx hc nofun rfl
  · exact hstep .call hc nofun rfl
  · exact hstep .irmovq hc nofun rfl
  · exact hstep .rmmovq hc nofun rfl
  · exact hstep .mrmovq hc nofun rfl

/-! ### The fatal abort (R136, R265) -/

theorem undefinedSelector_undefinedOp1 (ifun : Nybble) : undefinedSelector (undefinedOp1 ifun) = none := by
  rw [undefinedOp1]
  split <;> rfl

theorem undefinedSelector_op1Instr (ifun : Nybble) (rA rB : RegId) : undefinedSelector (op1Instr ifun rA rB) = none := by
  unfold op1Instr
  split <;> [rfl; rfl; rfl; rfl; exact undefinedSelector_undefinedOp1 ifun]

theorem undefinedSelector_assemble (cfg : Config) (cls : IClass) (ifun : Nybble) (regByte : Byte) (valC : Word) :
    undefinedSelector (assemble cfg cls ifun regByte valC) =
      if (cls = .cmov ∨ cls = .jxx) ∧ 7 ≤ ifun then some ifun else none := by
  cases cls with
  | cmov => simp [assemble, undefinedSelector_cmovInstr]
  | jxx => simp [assemble, undefinedSelector_jxxInstr]
  | op1 => simp [assemble, undefinedSelector_op1Instr]
  | _ => simp [assemble, undefinedSelector]

/-- A legal opcode byte of a class that reads a selector. -/
theorem step_of_selector {s : State} {b : Byte} {cls : IClass} (hok : s.status = .ok) (hb : s.readByte s.pc.toNat = some b)
    (hcls : classOf s.cfg (nybble b 1) = some cls) (hsel : cls = .cmov ∨ cls = .jxx) (h7 : 7 ≤ nybble b 0)
    (hlen : s.pc.toNat + cls.format.length ≤ s.cfg.memSize) : step s = .fault (.fatalAbort s.pc (nybble b 0)) := by
  have hlegal : IfunLegal s.cfg cls (nybble b 0) := by
    rcases hsel with rfl | rfl
    · exact ifunLegal_cmov s.cfg _
    · exact ifunLegal_jxx s.cfg _
  obtain ⟨regByte, valC, hstep⟩ := step_of_legal_inRange hok hb hcls hlegal hlen
  rw [hstep, exec_fault_iff, undefinedSelector_assemble, if_pos ⟨hsel, h7⟩]
  exact ⟨rfl, rfl⟩

/-- Settles O42: of what can stand at pc, only an instruction with an undefined selector aborts. -/
theorem fatalAbortExactlyOnUndefinedSelectors : Obligations.FatalAbortExactlyOnUndefinedSelectors := by
  intro s p sel
  refine ⟨fun h => ?_, ?_⟩
  · by_cases hok : s.status = .ok
    · cases atPc s with
      | noOpcode hb => rw [step_of_no_opcode hok hb] at h; cases h
      | illegal b hb hill => rw [step_of_illegal hok hb hill] at h; cases h
      | legal b cls hb hcls hlegal =>
        by_cases hlen : s.pc.toNat + cls.format.length ≤ s.cfg.memSize
        · obtain ⟨regByte, valC, hstep⟩ := step_of_legal_inRange hok hb hcls hlegal hlen
          rw [hstep, exec_fault_iff, undefinedSelector_assemble, Option.ite_none_right_eq_some, Option.some.injEq] at h
          obtain ⟨hp, ⟨hsel, h7⟩, hifun⟩ := h
          refine ⟨hok, hp, hifun ▸ h7, b, hb, hifun, ?_⟩
          rcases hsel with rfl | rfl
          · exact .inl ⟨hcls, hlen⟩
          · exact .inr ⟨hcls, hlen⟩
        · rw [step_of_legal_outOfRange hok hb hcls hlegal (Nat.not_le.1 hlen)] at h; cases h
    · rw [step_of_terminal hok] at h; cases h
  · rintro ⟨hok, rfl, h7, b, hb, rfl, ⟨hcls, hlen⟩ | ⟨hcls, hlen⟩⟩
    · exact step_of_selector hok hb hcls (.inl rfl) h7 hlen
    · exact step_of_selector hok hb hcls (.inr rfl) h7 hlen

/-- Settles O43: an event of the fetch is a next state, and an instruction without one aborts. -/
theorem everyStepGivesAStateOrAborts : Obligations.EveryStepGivesAStateOrAborts := by
  intro s
  by_cases hok : s.status = .ok
  · rw [step_of_ok hok]
    cases hfetch : s.fetchInstr with
    | badAddress a => exact .inl ⟨_, stepRunning_badAddress hfetch⟩
    | badInstruction => exact .inl ⟨_, stepRunning_badInstruction hfetch⟩
    | instr i =>
      rw [stepRunning_instr hfetch]
      cases hsel : undefinedSelector i with
      | none => exact .inl (exec_completes hsel s)
      | some sel => exact .inr ⟨s.pc, sel, exec_of_undefinedSelector hsel s⟩
  · exact .inl ⟨s, step_of_terminal hok⟩

/-! ### The events of a step -/

/-- A step begun in OK ends in OK, or in the old state with a terminal status. -/
theorem step_event_cases {s t : State} (hok : s.status = .ok) (h : step s = .next t) :
    t.status = .ok ∨ t = { s with status := .halted } ∨ t = { s with status := .badAddress } ∨
      t = { s with status := .badInstruction, pc := s.pc + 1 } := by
  rcases step_next_cases h with ⟨hne, -⟩ | ⟨-, ⟨a, -, rfl⟩ | ⟨-, rfl⟩ | ⟨i, -, hexec⟩⟩
  · exact absurd hok hne
  · exact .inr (.inr (.inl rfl))
  · exact .inr (.inr (.inr rfl))
  · cases exec_next_cases hexec with
    | completed hc => exact .inl (hc.status.trans hok)
    | halted => exact .inr (.inl rfl)
    | badAddress => exact .inr (.inr (.inl rfl))
    | badInstruction => exact .inr (.inr (.inr rfl))

/-- Settles O44: each terminal status names its event. -/
theorem terminalStepsWriteOnlyStatus : Obligations.TerminalStepsWriteOnlyStatus := by
  intro s t hok h
  rcases step_event_cases hok h with hstatus | rfl | rfl | rfl
  · simp [hstatus]
  · exact ⟨fun _ => rfl, nofun, nofun⟩
  · exact ⟨nofun, fun _ => rfl, nofun⟩
  · exact ⟨nofun, nofun, fun _ => rfl⟩

theorem assemble_eq_halt {cfg : Config} {cls : IClass} {ifun f : Nybble} {regByte : Byte} {valC : Word}
    (h : assemble cfg cls ifun regByte valC = .halt f) : cls = .halt := by
  have hunread := congrArg Instr.unreadIfun h
  cases cls with
  | halt => rfl
  | cmov => rw [assemble, unreadIfun_cmovInstr] at hunread; cases hunread
  | jxx => rw [assemble, unreadIfun_jxxInstr] at hunread; cases hunread
  | op1 => rw [assemble, unreadIfun_op1Instr] at hunread; cases hunread
  | _ => cases h

theorem not_reserved_cmovInstr (cfg : Config) (sel : Nybble) (rA rB : RegId) : ¬ Reserved (cmovInstr cfg sel rA rB) := by
  unfold cmovInstr
  repeat' split
  all_goals exact id

theorem not_reserved_jxxInstr (cfg : Config) (sel : Nybble) (dest : Word) : ¬ Reserved (jxxInstr cfg sel dest) := by
  unfold jxxInstr
  repeat' split
  all_goals exact id

theorem not_reserved_op1Instr {ifun : Nybble} (h : ¬ 3 < ifun) (rA rB : RegId) : ¬ Reserved (op1Instr ifun rA rB) := by
  unfold op1Instr
  split <;> [exact id; exact id; exact id; exact id; skip]
  next hf => exact absurd ((three_lt_iff ifun).2 ((aluFnOf_none_iff ifun).1 hf)) h

theorem not_reserved_assemble {cfg : Config} {cls : IClass} {ifun : Nybble} (h : IfunLegal cfg cls ifun) (regByte : Byte)
    (valC : Word) : ¬ Reserved (assemble cfg cls ifun regByte valC) := by
  cases cls with
  | cmov => exact not_reserved_cmovInstr cfg ifun _ _
  | jxx => exact not_reserved_jxxInstr cfg ifun valC
  | op1 => exact not_reserved_op1Instr (fun h3 => h.1 ⟨rfl, h3⟩) _ _
  | _ => exact id

section
variable {s t : State} (hok : s.status = .ok) (h : step s = .next t)
include hok h

/-- The cause of HALTED: a halt whose ifun the class checks let pass. -/
theorem step_halted_iff :
    t.status = .halted ↔ ∃ b, s.readByte s.pc.toNat = some b ∧ classOf s.cfg (nybble b 1) = some .halt ∧
      IfunLegal s.cfg .halt (nybble b 0) := by
  refine ⟨fun hhalted => ?_, fun ⟨b, hb, hcls, hlegal⟩ => ?_⟩
  · cases atPc s with
    | noOpcode hb => cases (step_of_no_opcode hok hb).symm.trans h; cases hhalted
    | illegal b hb hill => cases (step_of_illegal hok hb hill).symm.trans h; cases hhalted
    | legal b cls hb hcls hlegal =>
      by_cases hlen : s.pc.toNat + cls.format.length ≤ s.cfg.memSize
      · obtain ⟨regByte, valC, hstep⟩ := step_of_legal_inRange hok hb hcls hlegal hlen
        cases exec_next_cases (hstep.symm.trans h) with
        | completed hc => cases hok.symm.trans (hc.status.symm.trans hhalted)
        | halted f hi =>
          obtain rfl := assemble_eq_halt hi
          exact ⟨b, hb, hcls, hlegal⟩
        | badAddress | badInstruction => cases hhalted
      · cases (step_of_legal_outOfRange hok hb hcls hlegal (Nat.not_le.1 hlen)).symm.trans h; cases hhalted
  · have hpc : s.pc.toNat < s.cfg.memSize := (s.isSome_readByte _).1 (Option.isSome_of_eq_some hb)
    obtain ⟨regByte, valC, hstep⟩ := step_of_legal_inRange hok hb hcls hlegal hpc
    cases hstep.symm.trans h
    rfl

/-- The cause of BAD_INSTRUCTION: an opcode byte that fails a class check. -/
theorem step_badInstruction_iff :
    t.status = .badInstruction ↔ ∃ b, s.readByte s.pc.toNat = some b ∧ IllegalOpcode s.cfg b := by
  refine ⟨fun hbad => ?_, fun ⟨b, hb, hill⟩ => ?_⟩
  · cases atPc s with
    | noOpcode hb => cases (step_of_no_opcode hok hb).symm.trans h; cases hbad
    | illegal b hb hill => exact ⟨b, hb, hill⟩
    | legal b cls hb hcls hlegal =>
      by_cases hlen : s.pc.toNat + cls.format.length ≤ s.cfg.memSize
      · obtain ⟨regByte, valC, hstep⟩ := step_of_legal_inRange hok hb hcls hlegal hlen
        cases exec_next_cases (hstep.symm.trans h) with
        | completed hc => cases hok.symm.trans (hc.status.symm.trans hbad)
        | halted | badAddress => cases hbad
        | badInstruction hres => exact absurd hres (not_reserved_assemble hlegal regByte valC)
      · cases (step_of_legal_outOfRange hok hb hcls hlegal (Nat.not_le.1 hlen)).symm.trans h; cases hbad
  · cases (step_of_illegal hok hb hill).symm.trans h
    rfl

end

theorem ifunLegal_halt_iff (cfg : Config) (ifun : Nybble) :
    IfunLegal cfg .halt ifun ↔ (cfg.strictIfun = true → ifun = 0) := by
  rw [ifunLegal_iff_of_unread rfl]
  cases cfg.strictIfun <;> simp

/-- Settles O45: the two causes, with the class checks written out on the opcode byte. -/
theorem causesOfHaltedAndBadInstruction : Obligations.CausesOfHaltedAndBadInstruction := by
  intro s t hok h
  refine ⟨?_, ?_⟩
  · rw [step_halted_iff hok h]
    simp only [ifunLegal_halt_iff]
    rfl
  · rw [step_badInstruction_iff hok h]
    simp only [illegalOpcode_iff]

end Sys2Proof.Machine
end

section
/-! SUPPORT. What every step keeps (the parameters and the invariant), how runs end (40_cycle.md R112), code that was stored or loaded before
it is fetched (20_memory.md R66; 70_reset_and_hazards.md R291), and the machine between runs: launch, reset and the host port. -/

namespace Sys2Proof.Machine

/-! ### The parameters and memory after a step -/

/-- A step changes no parameter, and of memory at most one word in range. -/
theorem step_keeps {s t : State} (h : step s = .next t) : t.cfg = s.cfg ∧ (t.mem = s.mem ∨ ∃ a w, Stored s t a w) := by
  rcases step_next_cases h with ⟨-, rfl⟩ | ⟨-, ⟨a, -, rfl⟩ | ⟨-, rfl⟩ | ⟨i, -, hexec⟩⟩
  · exact ⟨rfl, .inl rfl⟩
  · exact ⟨rfl, .inl rfl⟩
  · exact ⟨rfl, .inl rfl⟩
  · cases exec_next_cases hexec with
    | completed hc => exact ⟨hc.cfg, hc.mem.imp_right fun ⟨a, w, _, hstored⟩ => ⟨a, w, hstored⟩⟩
    | halted | badAddress | badInstruction => exact ⟨rfl, .inl rfl⟩

/-- Settles O48: a step keeps the whole configuration. -/
theorem parametersNeverChange : Obligations.ParametersNeverChange := fun _ _ h => (step_keeps h).1

/-- The invariant speaks of the parameters and memory alone. -/
theorem State.Inv.congr {s t : State} (h : s.Inv) (hcfg : t.cfg = s.cfg) (hmem : t.mem = s.mem) : t.Inv where
  config := hcfg ▸ h.config
  canonical := hmem ▸ h.canonical
  inRange := by rw [hcfg, hmem]; exact h.inRange

/-- Storing a word keeps the invariant: the write keeps the canonical form, and it lies in memory. -/
theorem State.Inv.stored {s t : State} {a : Nat} {w : Word} (h : s.Inv) (hstored : Stored s t a w) : t.Inv where
  config := hstored.cfg ▸ h.config
  canonical := hstored.mem ▸ Memory.wf_writeBytes (wordBytes w) a h.canonical
  inRange := by
    rw [hstored.cfg, hstored.mem]
    exact Memory.writeBytes_bounded (wordBytes w) h.inRange hstored.inRange

/-- Settles O46: a step keeps the parameters, and what it makes of memory keeps the invariant. -/
theorem stepKeepsInvariant : Obligations.StepKeepsInvariant := by
  intro s t hinv h
  obtain ⟨hcfg, hmem | ⟨a, w, hstored⟩⟩ := step_keeps h
  · exact hinv.congr hcfg hmem
  · exact hinv.stored hstored

/-- Settles O47: at reset memory lists nothing; at a launch the invariant is the premises. -/
theorem invariantHoldsAtLaunch : Obligations.InvariantHoldsAtLaunch := by
  exact ⟨⟨by decide, by decide, nofun⟩, fun cfg cc regs mem hcfg hmem hrange => ⟨hcfg, hmem, hrange⟩⟩

/-! ### Runs -/

theorem run_add_of_next {M : Host.Core} {s t : M.State} {m : Nat} (h : M.run m s = .next t) (n : Nat) :
    M.run (m + n) s = M.run n t := by
  induction m generalizing s with
  | zero =>
    cases h
    rw [Nat.zero_add]
  | succ m ih =>
    rw [Nat.add_right_comm]
    rw [Host.Core.run] at h ⊢
    cases hstep : M.step s with
    | next u =>
      rw [hstep] at h
      exact ih h
    | fault f => rw [hstep] at h; cases h
    | refused r => rw [hstep] at h; cases h

theorem run_add_of_fault {M : Host.Core} {s : M.State} {f : M.Fault} {m : Nat} (h : M.run m s = .fault f) (n : Nat) :
    M.run (m + n) s = .fault f := by
  induction m generalizing s with
  | zero => cases h
  | succ m ih =>
    rw [Nat.add_right_comm]
    rw [Host.Core.run] at h ⊢
    cases hstep : M.step s with
    | next u =>
      rw [hstep] at h
      exact ih h
    | fault g => rw [hstep] at h; exact h
    | refused r => rw [hstep] at h; cases h

/-- Where a run has reached a terminal status, every longer run ends in the same state. -/
theorem run_of_terminal {s t : State} {m k : Nat} (h : Host.Core.run core m s = .next t) (ht : t.status ≠ .ok) (hmk : m ≤ k) :
    Host.Core.run core k s = .next t := by
  obtain ⟨n, rfl⟩ := Nat.exists_eq_add_of_le hmk
  exact (run_add_of_next h n).trans (run_of_step_self (step_of_terminal ht) n)

theorem Status.ne_ok_of_isFinal {st : Status} (h : st.isFinal = true) : st ≠ .ok := by
  rintro rfl
  cases h

theorem Status.ne_ok_of_isFault {st : Status} (h : st.isFault = true) : st ≠ .ok := by
  rintro rfl
  cases h

theorem Status.not_isFault_of_isFinal {st : Status} (h : st.isFinal = true) : st.isFault = false := by
  cases st with
  | halted => rfl
  | _ => cases h

/-- Settles O49: of two runs from one state the shorter decides the longer, once it has ended. -/
theorem runsThatEndWellNeverFault : Obligations.RunsThatEndWellNeverFault := by
  rintro s ⟨k, t, hk, hfinal⟩ (⟨m, u, hm, hfault⟩ | ⟨m, f, hm⟩)
  · have htu : t = u := by
      rcases le_total k m with hkm | hmk
      · exact Host.Outcome.next.inj ((run_of_terminal hk (Status.ne_ok_of_isFinal hfinal) hkm).symm.trans hm)
      · exact Host.Outcome.next.inj (hk.symm.trans (run_of_terminal hm (Status.ne_ok_of_isFault hfault) hmk))
    rw [← htu, Status.not_isFault_of_isFinal hfinal] at hfault
    cases hfault
  · rcases le_total k m with hkm | hmk
    · cases (run_of_terminal hk (Status.ne_ok_of_isFinal hfinal) hkm).symm.trans hm
    · obtain ⟨n, rfl⟩ := Nat.exists_eq_add_of_le hmk
      cases hk.symm.trans (run_add_of_fault hm n)

/-! ### Code that was written before it is fetched -/

theorem Memory.readBytes_append (m : Memory) (a n k : Nat) :
    m.readBytes a (n + k) = m.readBytes a n ++ m.readBytes (a + n) k := by
  induction n generalizing a with
  | zero => simp [Memory.readBytes]
  | succ n ih => rw [Nat.succ_add, Memory.readBytes, Memory.readBytes, ih, List.cons_append, Nat.add_assoc, Nat.add_comm 1 n]

/-- Written bytes are read back together. -/
theorem Memory.readBytes_writeBytes (m : Memory) (a : Nat) (bs : List Byte) :
    (m.writeBytes a bs).readBytes a bs.length = bs := by
  refine List.ext_getElem (Memory.readBytes_length ..) fun k _ hk => ?_
  rw [Memory.readBytes_getElem, Memory.read_writeBytes_inside bs m a k hk]

/-- Bytes written at pc, as many as fit, begin what the decoder may read there. -/
theorem codeBytes_of_writeBytes {s : State} {m : Memory} {bs : List Byte} (hmem : s.mem = m.writeBytes s.pc.toNat bs)
    (h10 : bs.length ≤ 10) (hrange : s.pc.toNat + bs.length ≤ s.cfg.memSize) : ∃ more, s.codeBytes = bs ++ more := by
  obtain ⟨k, hk⟩ := Nat.exists_eq_add_of_le (show bs.length ≤ min 10 (s.cfg.memSize - s.pc.toNat) by omega)
  rw [State.codeBytes, hk, Memory.readBytes_append, hmem, Memory.readBytes_writeBytes]
  exact ⟨_, rfl⟩

theorem takeOperands_append {f : Format} {bytes rest : List Byte} {regByte : Byte} {valC : Word}
    (h : takeOperands f bytes = some (regByte, valC, rest)) (more : List Byte) :
    takeOperands f (bytes ++ more) = some (regByte, valC, rest ++ more) := by
  obtain rfl := takeOperands_some h
  cases f with
  | F1 => cases h; rfl
  | F2 => cases h; rfl
  | F9 =>
    rw [operandBytes, takeOperands_F9] at h
    cases h
    rw [operandBytes, List.append_assoc, takeOperands_F9]
  | F10 => rw [operandBytes, List.append_assoc, List.cons_append, takeOperands_F10]

/-- The decoder reads no byte after the instruction it gives. -/
theorem decode_append {cfg : Config} {bytes rest : List Byte} {i : Instr} (h : decode cfg bytes = .ok (i, rest))
    (more : List Byte) : decode cfg (bytes ++ more) = .ok (i, rest ++ more) := by
  cases bytes with
  | nil => cases h
  | cons b0 bytes =>
    rw [List.cons_append]
    rw [decode] at h ⊢
    cases hv : decodeOpcode cfg b0 with
    | whole j =>
      rw [hv] at h
      cases h
      rfl
    | rejected r => rw [hv] at h; cases h
    | operands cls ifun =>
      rw [hv] at h
      dsimp only at h ⊢
      cases hop : takeOperands cls.format bytes with
      | none => rw [hop] at h; cases h
      | some p =>
        obtain ⟨regByte, valC, left⟩ := p
        rw [hop] at h
        cases h
        rw [takeOperands_append hop]

/-- Bytes written at pc that decode to an instruction: the step is that instruction. -/
theorem step_of_writeBytes {s : State} {m : Memory} {bs rest : List Byte} {i : Instr} (hok : s.status = .ok)
    (hmem : s.mem = m.writeBytes s.pc.toNat bs) (h10 : bs.length ≤ 10) (hrange : s.pc.toNat + bs.length ≤ s.cfg.memSize)
    (hdecode : decode s.cfg bs = .ok (i, rest)) : step s = exec i s := by
  obtain ⟨more, hcode⟩ := codeBytes_of_writeBytes hmem h10 hrange
  exact stepRunsTheDecodedInstruction s i (rest ++ more) hok (hcode ▸ decode_append hdecode more)

theorem tableBytes_length (nbits w : Nat) : (tableBytes nbits w).length = 10 := rfl

/-- Settles O50: the load writes the ten bytes at pc and the status OK. -/
theorem placedInstructionRunsNext : Obligations.PlacedInstructionRunsNext := by
  intro s nbits w i rest hrange hdecode
  have hplaced : s.withFetchWord nbits w =
      { s.setStatus .ok with mem := s.mem.writeBytes s.pc.toNat (tableBytes nbits w) } :=
    State.loadBytes_of_inRange (tableBytes nbits w) (s.setStatus .ok) s.pc.toNat hrange
  rw [hplaced]
  exact step_of_writeBytes rfl rfl (tableBytes_length nbits w).le hrange hdecode

/-- Settles O54: the completed store is at the pc it leaves. -/
theorem storeIsSeenByTheNextFetch : Obligations.StoreIsSeenByTheNextFetch := by
  intro f rA rB d s t i rest hok hexec ht haddr hdecode
  by_cases hrange : s.wordInRange (s.dataAddress rB d).toNat
  · obtain rfl := Host.Outcome.next.inj ((execRmmovq_of_inRange f rA hrange).symm.trans hexec)
    rw [haddr] at hrange ⊢
    exact step_of_writeBytes hok rfl (by simp) hrange hdecode
  · obtain rfl := Host.Outcome.next.inj ((execRmmovq_of_outOfRange f rA hrange).symm.trans hexec)
    cases ht

/-! ### Launch, reset and the host port -/

/-- Settles O55: the launch copies its inputs, and memory is read where it exists. -/
theorem launchStartsAtEntryWithStatusOk : Obligations.LaunchStartsAtEntryWithStatusOk := by
  intro cfg cc regs mem r
  exact ⟨rfl, rfl, rfl, rfl, fun a ha => State.readByte_of_inRange ha⟩

/-- Settles O56: the fields of the one launch that reset is; an empty memory reads 0 everywhere. -/
theorem resetTakesTheNamedValues : Obligations.ResetTakesTheNamedValues := by
  exact ⟨rfl, rfl, rfl, by decide, fun a ha => State.readByte_of_inRange ha, rfl⟩

theorem statusOfCode_eq_none {n : Nat} (h : n = 0 ∨ 4 < n) : statusOfCode n = none := by
  rcases h with rfl | h
  · rfl
  · obtain ⟨k, rfl⟩ := Nat.exists_eq_add_of_le' h
    rfl

theorem Status.code_eq_iff (st st' : Status) : st.code = st'.code ↔ st = st' := by
  cases st <;> cases st' <;> decide

theorem toNat_packFlags (f : Flags) : (packFlags f).toNat = 4 * f.z.toNat + 2 * f.s.toNat + f.o.toNat := by
  obtain ⟨z, s, o⟩ := f
  revert z s o
  decide

theorem packFlags_unpackFlags (b : Byte) : packFlags (unpackFlags b) = b &&& 7 := by
  revert b
  decide

theorem unpackFlags_packFlags (f : Flags) : unpackFlags (packFlags f) = f := by
  obtain ⟨z, s, o⟩ := f
  revert z s o
  decide

/-- Settles O57: the status numbers are one per status, and the flag byte is unpacked as it is packed. -/
theorem hostPortNumbersAndPacking : Obligations.HostPortNumbersAndPacking := by
  intro s n b address
  have hcode := Status.code_eq_iff s.status
  refine ⟨fun hn => ?_, fun hn => ?_, hcode .ok, hcode .halted, hcode .badAddress, hcode .badInstruction,
    toNat_packFlags s.cc, packFlags_unpackFlags b, ?_, rfl, rfl⟩
  · rcases hn with rfl | rfl | rfl | rfl <;> exact ⟨_, rfl, rfl, rfl⟩
  · rw [State.writeStatus, statusOfCode_eq_none hn]
  · rw [State.readConditionCodes, State.writeConditionCodes, unpackFlags_packFlags]
    rfl

end Sys2Proof.Machine
end
